-- ==== Sys2Proof/Word.lean ====
section
/-! DEFINITION. The fixed-width words of the block (00_scope.md R5, R7). -/

namespace Sys2Proof

/-- A byte: payload bytes, datagram bytes, reply bytes. -/
abbrev Byte := BitVec 8

/-- A driver-chip register value, `CHIP_REG_W = 32` (R5). -/
abbrev Word := BitVec 32

/-- A driver-chip register address, `CHIP_ADDR_W = 7` (R5). -/
abbrev ChipAddr := BitVec 7

/-- A frame identifier, `ID_W = 11` (R5). -/
abbrev FrameId := BitVec 11

/-- The bits of an operation record, `O[127:0]` (R95). -/
abbrev RecordBits := BitVec 128

/-- The bits of a datagram, `G[39:0]`, byte 0 in `G[39:32]` (R90). -/
abbrev DatagramBits := BitVec 40

/-- The five bytes of a datagram, byte 0 first (R60). -/
abbrev DatagramBytes := Vector Byte 5

end Sys2Proof
end

