-- ==== Sys2Proof/Config.lean ====
section
/-! DEFINITION. What an implementation of the block fixes (00_scope.md R5), and the values the spec leaves free. -/

namespace Sys2Proof

/-- The parameters a model takes as arguments (R5; 92_eei_decisions.md, "Open parameters").
They stand in State so that every statement speaks of every configuration. -/
structure Params where
  /-- `RING_N`: frame slots in the ring buffer. -/
  ringN : Nat
  /-- `N_MAILBOX`: transmit mailboxes. -/
  nMailbox : Nat
  /-- `HW_RX_DEPTH`: frames the hardware receive stage can hold. -/
  hwRxDepth : Nat
  deriving DecidableEq, Repr

namespace Params

/-- The legal values of the parameters (R5, D5, D6, D7). -/
abbrev Legal (p : Params) : Prop := 2 ≤ p.ringN ∧ 1 ≤ p.nMailbox ∧ 1 ≤ p.hwRxDepth

/-- The reference system (R5): 32 slots, 3 mailboxes.
DESIGN CHOICE (log entry 2): the spec leaves `HW_RX_DEPTH` open; 4 stands here and no statement rests on it. -/
def reference : Params := { ringN := 32, nMailbox := 3, hwRxDepth := 4 }

/-- `RING_USABLE`: the most frames the ring holds at once (R5, R131). -/
def ringUsable (p : Params) : Nat := p.ringN - 1

/-- `IDX_W`: the fewest bits an index word may have, `ceil(log2(RING_N))` (R5, D36). -/
def idxW (p : Params) : Nat := Nat.clog 2 p.ringN

end Params

/-- `LEN_MAX`: the largest data length SEND takes (R5, R99). -/
def lenMax : Nat := 8

/-- `BUS_BITRATE` in bit/s (R5, R284): recorded; no rule and no definition of the model reads it. -/
def busBitrate : Nat := 125000

/-- Free value: the reply bytes of a datagram that is offered alone, taken by a counter (R212: each reply byte
is a draw, any 8-bit value; log entry 12). -/
opaque Config.replyByte : Nat → Byte

/-- Free value: what the reference chip answers to a sixth or later byte of one chip-select assertion; R214
states a reply for the first five bytes only (log entry 14). -/
opaque Config.chipReplyBeyond : Nat → Byte

end Sys2Proof
end

