-- ==== Sys2Proof/Syntax.lean ====
section
/-! DEFINITION. Frames, agents, the two encodings' words, and the instructions: one constructor per row of
spec/opcode_table.json. -/

namespace Sys2Proof

/-- A bus frame `Frame{id, len, data}` (R9): copied by value, all eight data bytes with it.
DEDUCED (log entry 25): R22 and R45 call a frame 83 bits wide, as 11 + 4 + 64, which sum to 79; the fields stand. -/
structure Frame where
  id : FrameId
  len : BitVec 4
  data : Vector Byte 8
  deriving DecidableEq, Repr

/-- The agents whose steps make a run (R6), and the serial register engine, which steps for MAIN (R44, R201). -/
inductive Agent where
  | main
  | isr
  | bus
  | serialEnv
  | sre
  | chip
  deriving DecidableEq, Repr

/-- An operation record, field by field (R95). -/
structure OpRecord where
  op : BitVec 4
  reserved : BitVec 4
  a : BitVec 8
  b : BitVec 16
  c : BitVec 32
  p : BitVec 64
  deriving DecidableEq, Repr

/-- What can be offered to the block: the bits of an operation record (format OPR128, R95) or of a datagram
(format DATAGRAM40, R90). -/
inductive Raw where
  | opr (o : RecordBits)
  | dgram (g : DatagramBits)
  deriving DecidableEq, Repr

/-- The ten operations and events of R96 and the two datagrams of R91 and R92. Address operands of register
operations keep all eight bits of their field (R65, R195). -/
inductive Instr where
  /-- R120 -/
  | linkInit (lb : Bool)
  /-- R127 -/
  | receive (maxN : BitVec 16)
  /-- R160 -/
  | send (f : Frame)
  /-- R195 -/
  | regWrite (a : BitVec 8) (v : Word)
  /-- R197 -/
  | regRead (a : BitVec 8)
  /-- R125 -/
  | rxIsr
  /-- R122 -/
  | frameArrival (f : Frame)
  /-- R164 -/
  | txDone (i : BitVec 8)
  /-- R192 -/
  | spiShift (r : Byte)
  /-- R199 -/
  | settleElapsed
  /-- R91 -/
  | dgramWrite (a : ChipAddr) (v : Word)
  /-- R92 -/
  | dgramRead (a : ChipAddr)
  deriving DecidableEq, Repr

end Sys2Proof
end

