-- ==== Sys2Proof/WellFormed.lean ====
section
/-! DEFINITION. The operand range checks of 30_encoding.md R99. Every other operand range is the operand's type. -/

namespace Sys2Proof

/-- The operands lie in the ranges R99 admits, for the parameters `p`. -/
def Instr.wellFormed (p : Params) : Instr → Bool
  | .linkInit _ => true
  | .receive _ => true
  | .send f => f.len.toNat ≤ lenMax
  | .regWrite _ _ => true
  | .regRead _ => true
  | .rxIsr => true
  | .frameArrival _ => true
  | .txDone i => i.toNat < p.nMailbox
  | .spiShift _ => true
  | .settleElapsed => true
  | .dgramWrite _ _ => true
  | .dgramRead _ => true

end Sys2Proof
end

