-- ==== Sys2Proof/Decode.lean ====
section
/-! DEFINITION. The decoder (total on all bits and on all bytes, refusing by name), the encoder, and the table of
match and mask words, from 30_encoding.md and spec/opcode_table.json. -/

namespace Sys2Proof

/-- Why a word is no instruction. -/
inductive Reject where
  /-- R97: a reserved op code, or reserved bits or unused fields that are not zero; also a datagram that is
  neither pattern of R91 and R92 (log entry 17). -/
  | reservedEncoding
  /-- R101: a record has exactly 16 bytes and a datagram exactly 5. -/
  | badLength
  deriving DecidableEq, Repr

/-! ### Fields -/

/-- `v[hi:lo]` with its width `w = hi - lo + 1` (R7). -/
def bitField {n : Nat} (v : BitVec n) (lo w : Nat) : BitVec w := v.extractLsb' lo w

/-- The fields of a record (R95). -/
def OpRecord.ofBits (o : RecordBits) : OpRecord :=
  { op := bitField o 0 4, reserved := bitField o 4 4, a := bitField o 8 8, b := bitField o 16 16,
    c := bitField o 32 32, p := bitField o 64 64 }

/-- The bits of a record (R95). -/
def OpRecord.toBits (r : OpRecord) : RecordBits := r.p ++ r.c ++ r.b ++ r.a ++ r.reserved ++ r.op

/-- `data[j] = P[8j+7:8j]` (R95, R100). -/
def payloadOfBits (p : BitVec 64) : Vector Byte 8 := Vector.ofFn fun j => bitField p (8 * j.val) 8

/-- The field `P` of a payload (R95). -/
def payloadToBits (d : Vector Byte 8) : BitVec 64 :=
  d[7] ++ d[6] ++ d[5] ++ d[4] ++ d[3] ++ d[2] ++ d[1] ++ d[0]

/-- The frame operand of a record (R100). -/
def OpRecord.frame (r : OpRecord) : Frame :=
  { id := bitField r.b 0 11, len := bitField r.a 0 4, data := payloadOfBits r.p }

/-- The bits of `A` and `B` outside a frame operand, which must be zero (R96). -/
def OpRecord.frameSpare (r : OpRecord) : Bool := bitField r.a 4 4 == 0 && bitField r.b 11 5 == 0

/-- The bytes of a datagram, byte 0 first (R60, R90). -/
def datagramBytes (g : DatagramBits) : DatagramBytes :=
  #v[bitField g 32 8, bitField g 24 8, bitField g 16 8, bitField g 8 8, bitField g 0 8]

/-- The datagram of five bytes, byte 0 in `G[39:32]` (R90). -/
def datagramOfBytes (b : DatagramBytes) : DatagramBits := b[0] ++ b[1] ++ b[2] ++ b[3] ++ b[4]

/-! ### Decoding -/

/-- The instruction of a record whose unused fields are zero; anything else spells no operation (R96, R97). -/
def decodeRecord (r : OpRecord) : Except Reject Instr :=
  let reject : Except Reject Instr := .error .reservedEncoding
  if r.reserved ≠ 0 then reject else
  match r.op.toNat with
  | 0x1 => if bitField r.a 1 7 == 0 && r.b == 0 && r.c == 0 && r.p == 0 then .ok (.linkInit (r.a.getLsbD 0)) else reject
  | 0x2 => if r.a == 0 && r.c == 0 && r.p == 0 then .ok (.receive r.b) else reject
  | 0x3 => if r.frameSpare && r.c == 0 then .ok (.send r.frame) else reject
  | 0x4 => if r.b == 0 && r.p == 0 then .ok (.regWrite r.a r.c) else reject
  | 0x5 => if r.b == 0 && r.c == 0 && r.p == 0 then .ok (.regRead r.a) else reject
  | 0x8 => if r.a == 0 && r.b == 0 && r.c == 0 && r.p == 0 then .ok .rxIsr else reject
  | 0x9 => if r.frameSpare && r.c == 0 then .ok (.frameArrival r.frame) else reject
  | 0xA => if r.b == 0 && r.c == 0 && r.p == 0 then .ok (.txDone r.a) else reject
  | 0xB => if r.b == 0 && r.c == 0 && r.p == 0 then .ok (.spiShift r.a) else reject
  | 0xC => if r.a == 0 && r.b == 0 && r.c == 0 && r.p == 0 then .ok .settleElapsed else reject
  | _ => reject

/-- The instruction of a datagram: write when `G[39]` is 1 (R91); read when it is 0 and the dummy bytes are zero
(R92). -/
def decodeDatagram (g : DatagramBits) : Except Reject Instr :=
  if g.getLsbD 39 then .ok (.dgramWrite (bitField g 32 7) (bitField g 0 32))
  else if bitField g 0 32 == 0 then .ok (.dgramRead (bitField g 32 7))
  else .error .reservedEncoding

/-- The decoder: total on every word of both formats. -/
def decode : Raw → Except Reject Instr
  | .opr o => decodeRecord (OpRecord.ofBits o)
  | .dgram g => decodeDatagram g

/-- Bytes, the first least significant, as one number. -/
def natOfBytesLE : List Byte → Nat
  | [] => 0
  | b :: bs => b.toNat + 256 * natOfBytesLE bs

/-- Bytes, the first most significant, as one number. -/
def natOfBytesBE (bs : List Byte) : Nat := natOfBytesLE bs.reverse

/-- The decoder on bytes: five bytes are a datagram, byte 0 first (R90); sixteen are a record, least significant
byte first (DESIGN CHOICE, log entry 13: the spec gives a record no byte order); every other length is refused
(R101). -/
def decodeBytes (bs : List Byte) : Except Reject Instr :=
  if bs.length = 5 then decode (.dgram (BitVec.ofNat 40 (natOfBytesBE bs)))
  else if bs.length = 16 then decode (.opr (BitVec.ofNat 128 (natOfBytesLE bs)))
  else .error .badLength

/-! ### Encoding -/

/-- A record whose fields not listed for its op are zero (R96). -/
def opRecord (op : BitVec 4) (a : BitVec 8 := 0) (b : BitVec 16 := 0) (c : BitVec 32 := 0) (p : BitVec 64 := 0) :
    Raw :=
  .opr (OpRecord.toBits { op := op, reserved := 0, a := a, b := b, c := c, p := p })

/-- A record with a frame operand (R96, R100). -/
def frameRecord (op : BitVec 4) (f : Frame) : Raw :=
  opRecord op (a := 0#4 ++ f.len) (b := 0#5 ++ f.id) (p := payloadToBits f.data)

/-- The encoder, from the op map of R96 and the datagram formats of R91 and R92. -/
def encode : Instr → Raw
  | .linkInit lb => opRecord 0x1 (a := if lb then 1 else 0)
  | .receive n => opRecord 0x2 (b := n)
  | .send f => frameRecord 0x3 f
  | .regWrite a v => opRecord 0x4 (a := a) (c := v)
  | .regRead a => opRecord 0x5 (a := a)
  | .rxIsr => opRecord 0x8
  | .frameArrival f => frameRecord 0x9 f
  | .txDone i => opRecord 0xA (a := i)
  | .spiShift r => opRecord 0xB (a := r)
  | .settleElapsed => opRecord 0xC
  | .dgramWrite a v => .dgram (1#1 ++ a ++ v)
  | .dgramRead a => .dgram (0#1 ++ a ++ 0#32)

/-! ### Issuers and the opcode table -/

/-- The agent that issues an instruction (R96 and the opcode table's "issuer"). -/
def Instr.issuer : Instr → Agent
  | .linkInit _ => .main
  | .receive _ => .main
  | .send _ => .main
  | .regWrite _ _ => .main
  | .regRead _ => .main
  | .rxIsr => .isr
  | .frameArrival _ => .bus
  | .txDone _ => .bus
  | .spiShift _ => .serialEnv
  | .settleElapsed => .serialEnv
  | .dgramWrite _ _ => .sre
  | .dgramRead _ => .sre

/-- The row of spec/opcode_table.json an instruction belongs to. -/
def Instr.mnemonic : Instr → String
  | .linkInit _ => "LINK_INIT"
  | .receive _ => "RECEIVE"
  | .send _ => "SEND"
  | .regWrite _ _ => "REG_WRITE"
  | .regRead _ => "REG_READ"
  | .rxIsr => "RX_ISR"
  | .frameArrival _ => "FRAME_ARRIVAL"
  | .txDone _ => "TX_DONE"
  | .spiShift _ => "SPI_SHIFT"
  | .settleElapsed => "SETTLE_ELAPSED"
  | .dgramWrite _ _ => "DGRAM_WRITE"
  | .dgramRead _ => "DGRAM_READ"

/-- The opcode table's rows of format OPR128: mnemonic, match and mask, as spec/opcode_table.json has them. The
decoder is written from R96; that the two agree is an obligation. -/
def recordTable : List (String × RecordBits × RecordBits) :=
  [ ("LINK_INIT",      0x00000000000000000000000000000001#128, 0xfffffffffffffffffffffffffffffeff#128),
    ("RECEIVE",        0x00000000000000000000000000000002#128, 0xffffffffffffffffffffffff0000ffff#128),
    ("SEND",           0x00000000000000000000000000000003#128, 0x0000000000000000fffffffff800f0ff#128),
    ("REG_WRITE",      0x00000000000000000000000000000004#128, 0xffffffffffffffff00000000ffff00ff#128),
    ("REG_READ",       0x00000000000000000000000000000005#128, 0xffffffffffffffffffffffffffff00ff#128),
    ("RX_ISR",         0x00000000000000000000000000000008#128, 0xffffffffffffffffffffffffffffffff#128),
    ("FRAME_ARRIVAL",  0x00000000000000000000000000000009#128, 0x0000000000000000fffffffff800f0ff#128),
    ("TX_DONE",        0x0000000000000000000000000000000a#128, 0xffffffffffffffffffffffffffff00ff#128),
    ("SPI_SHIFT",      0x0000000000000000000000000000000b#128, 0xffffffffffffffffffffffffffff00ff#128),
    ("SETTLE_ELAPSED", 0x0000000000000000000000000000000c#128, 0xffffffffffffffffffffffffffffffff#128) ]

/-- The opcode table's rows of format DATAGRAM40. -/
def datagramTable : List (String × DatagramBits × DatagramBits) :=
  [ ("DGRAM_WRITE", 0x8000000000#40, 0x8000000000#40),
    ("DGRAM_READ",  0x0000000000#40, 0x80ffffffff#40) ]

/-! ### The host's reading of a table word -/

/-- The word of an opcode-table row of `nbits` bits: 40 bits are a datagram, numbered as R90 numbers `G`; every
other length is a record, the bits above `nbits` zero. -/
def rawOfTable (nbits w : Nat) : Raw :=
  if nbits = 40 then .dgram (BitVec.ofNat 40 w) else .opr (BitVec.ofNat 128 w)

/-- The instruction the decoder reads from the table word `w`. -/
def decodeTableWord (nbits w : Nat) : Option Instr := (decode (rawOfTable nbits w)).toOption

end Sys2Proof
end

