-- ==== Sys2Proof/Machine/State.lean ====
section
/-! DEFINITION. The state of the block (10_state.md), the reference chip's state (42_serial_protocol.md R213), the
model's own inputs and schedule, the refusals, and the state after reset. -/

namespace Sys2Proof.Machine

/-- A transmit mailbox (R32): `busy` is busy-transmitting, not `busy` is free. -/
structure Mailbox where
  busy : Bool
  frame : Frame
  deriving DecidableEq, Repr

/-- `sre_phase`: which transaction is in flight (R36). -/
inductive SrePhase where
  | wr
  | rd1
  | rd2
  deriving DecidableEq, Repr

/-- `eng`: the serial engine's sequencing state (R40). -/
inductive EngState where
  | idle
  | put
  | get
  | settle
  deriving DecidableEq, Repr

/-- The receive unit RXU and the link configuration (R22 to R24, R27, R28, R30, R31). `hwq` and `rxOut` hold the
oldest frame first. -/
structure Rxu where
  slots : List Frame
  head : Nat
  tail : Nat
  hwq : List Frame
  linkUp : Bool
  loopback : Bool
  inIsr : Bool
  rxBusy : Bool
  rxLeft : BitVec 16
  rxOut : List Frame
  deriving DecidableEq, Repr

/-- The transmit unit TXU: `mb[0]` to `mb[N_MAILBOX - 1]` (R32). -/
structure Txu where
  mailboxes : List Mailbox
  deriving DecidableEq, Repr

/-- The serial register engine SRE (R33 to R38, R40). -/
structure Sre where
  cs : Bool
  txdr : Byte
  rxdr : Byte
  txe : Bool
  rxne : Bool
  tx : DatagramBytes
  rx : DatagramBytes
  phase : SrePhase
  addr : ChipAddr
  k : Fin 5
  result : Word
  callerWaiting : Bool
  eng : EngState
  deriving DecidableEq, Repr

/-- The reference driver chip (R41, R42, R213): its registers, the out-word `D` latched by the last read datagram,
the word `O` being shifted out, the byte counter `cnt` and the in-buffer `inb`. -/
structure Chip where
  regs : Vector Word 128
  dataWord : Word
  outWord : Word
  count : Nat
  inBuf : DatagramBytes
  deriving DecidableEq, Repr

/-- What a finished MAIN operation returns to its caller: SEND one bit (R161), RECEIVE a count and that many frames
(R129), REG_WRITE no value (R196), REG_READ the result (R200). The model's own record of it (log entry 10). -/
inductive CallResult where
  | sent (ok : Bool)
  | received (count : Nat) (frames : List Frame)
  | written
  | readValue (v : Word)
  deriving DecidableEq, Repr

/-- One turn of the schedule: a step of an agent (R6, R70), or a restart of the node (R271). -/
inductive Turn where
  | agent (a : Agent)
  | nodeReset
  deriving DecidableEq, Repr

/-- The model's own inputs (log entry 4): the schedule, and for each agent the records it will offer, next one
first. -/
structure Inputs where
  turns : List Turn
  main : List Raw
  isr : List Raw
  bus : List Raw
  serialEnv : List Raw
  sre : List Raw
  chip : List Raw
  deriving DecidableEq, Repr

/-- The machine: parameters (R5), the three units (R1), the driver chip (R213), whether MAIN has stepped since reset
(R270; log entry 26), and the model's own fields `ret` (log entry 10), `draws` (log entry 12) and `inputs` (log entry
4). -/
structure State where
  cfg : Params
  rxu : Rxu
  txu : Txu
  sre : Sre
  chip : Chip
  mainStepped : Bool
  ret : Option CallResult
  draws : Nat
  inputs : Inputs
  deriving DecidableEq, Repr

/-- No operation of the block faults (R240, R242, U14): there is no fault (log entry 18). -/
inductive Fault where
  deriving DecidableEq, Repr

/-- The cases in which the model gives no meaning, all of R242 and each safe (toward unprovable). -/
inductive Refusal where
  /-- Raised by an arm of exec that has no meaning yet; safe. -/
  | notModelled (mnemonic : String)
  /-- Raised when an offered word spells no operation (R97); safe. -/
  | reservedEncoding
  /-- Raised when a record is offered by an agent that is not its issuer (R98); safe. -/
  | wrongIssuer
  /-- Raised by SEND with `len > 8` (R99, R163); safe. -/
  | sendLength
  /-- Raised by TX_DONE with a mailbox index that does not exist (R99); safe. -/
  | noSuchMailbox
  /-- Raised by LINK_INIT when the link is up (R121); safe. -/
  | linkReinit
  /-- Raised by RECEIVE and SEND before LINK_INIT (R121); safe. -/
  | linkNotInitialised
  /-- Raised by REG_WRITE, REG_READ and a lone datagram while the engine is not IDLE (R202); safe. -/
  | serialBusy
  deriving DecidableEq, Repr

/-! ### Reset -/

/-- The frame of zeros: DESIGN CHOICE for every frame R45 leaves unspecified at reset (log entry 3). -/
def zeroFrame : Frame := { id := 0, len := 0, data := Vector.replicate 8 0 }

/-- The RXU after reset (R45). -/
def Rxu.reset (p : Params) : Rxu :=
  { slots := List.replicate p.ringN zeroFrame, head := 0, tail := 0, hwq := [], linkUp := false, loopback := false,
    inIsr := false, rxBusy := false, rxLeft := 0, rxOut := [] }

/-- The TXU after reset: every mailbox free (R45). -/
def Txu.reset (p : Params) : Txu :=
  { mailboxes := List.replicate p.nMailbox { busy := false, frame := zeroFrame } }

/-- The SRE after reset: `cs = 0`, `txe = 1`, `rxne = 0`, `eng = IDLE`, no caller waiting (R45); the elements R45
leaves unspecified at the values of log entry 3. -/
def Sre.reset : Sre :=
  { cs := false, txdr := 0, rxdr := 0, txe := true, rxne := false, tx := Vector.replicate 5 0,
    rx := Vector.replicate 5 0, phase := .wr, addr := 0, k := 0, result := 0, callerWaiting := false, eng := .idle }

/-- The reference chip before its first datagram: unspecified (R213), at the values of log entry 3. -/
def Chip.initial : Chip :=
  { regs := Vector.replicate 128 0, dataWord := 0, outWord := 0, count := 0, inBuf := Vector.replicate 5 0 }

/-- No agent has anything to offer and no turn is scheduled. -/
def Inputs.empty : Inputs := { turns := [], main := [], isr := [], bus := [], serialEnv := [], sre := [], chip := [] }

/-- The machine after reset, for the parameters `p` (R270). -/
def State.resetWith (p : Params) : State :=
  { cfg := p, rxu := Rxu.reset p, txu := Txu.reset p, sre := Sre.reset, chip := Chip.initial, mainStepped := false,
    ret := none, draws := 0, inputs := Inputs.empty }

/-- The machine after reset, the reference system (R5, R270). -/
def State.reset : State := State.resetWith Params.reference

end Sys2Proof.Machine
end

