-- ==== Sys2Proof/Machine/Flags.lean ====
section
/-! DEFINITION. The block's conditions (R39): empty, full, occupancy, interrupt request, mailbox choice. All but
the stored bits are derived from the state and never stored. -/

namespace Sys2Proof.Machine

/-- `(i + 1) mod RING_N` (R7). -/
def nextIndex (s : State) (i : Nat) : Nat := (i + 1) % s.cfg.ringN

/-- Empty: `head == tail` (R24). -/
def ringEmpty (s : State) : Bool := s.rxu.head == s.rxu.tail

/-- Full: `(head + 1) mod RING_N == tail` (R25). -/
def ringFull (s : State) : Bool := nextIndex s s.rxu.head == s.rxu.tail

/-- `occ = (head - tail) mod RING_N` (R26). -/
def occupancy (s : State) : Nat := (s.rxu.head + s.cfg.ringN - s.rxu.tail) % s.cfg.ringN

/-- `slot[i]` (R22). A slot that the list does not hold, which no run reaches, reads as the zero frame (log
entry 19). -/
def slotAt (s : State) (i : Nat) : Frame := s.rxu.slots.getD i zeroFrame

/-- The undelivered frames, oldest first: `slot[(tail + j) mod RING_N]` for `j < occ` (R26). -/
def ringFrames (s : State) : List Frame :=
  (List.range (occupancy s)).map fun j => slotAt s ((s.rxu.tail + j) % s.cfg.ringN)

/-- `irq_rx`: `link_up == 1 and |hwq| > 0` (R29). -/
def irqRx (s : State) : Bool := s.rxu.linkUp && !s.rxu.hwq.isEmpty

/-- The receive stage holds `HW_RX_DEPTH` frames (R122). -/
def stageFull (s : State) : Bool := s.rxu.hwq.length == s.cfg.hwRxDepth

/-- SEND's choice: the lowest index of a free mailbox, if there is one (R160). -/
def freeMailbox (s : State) : Option Nat := s.txu.mailboxes.findIdx? fun m => !m.busy

end Sys2Proof.Machine
end

