-- ==== Sys2Proof/Machine/Operands.lean ====
section
/-! DEFINITION. Operand forms: the address operand, the bytes of the two datagrams, and the result assembled from
reply bytes (R60, R61, R65, R91, R92). -/

namespace Sys2Proof.Machine

/-- `a[6:0]`: bit 7 of an address operand has no effect (R65, R100). -/
def addrOperand (a : BitVec 8) : ChipAddr := bitField a 0 7

/-- The bytes of `v`, most significant first, after `first` (R60). -/
def msbFirst (first : Byte) (v : Word) : DatagramBytes :=
  #v[first, bitField v 24 8, bitField v 16 8, bitField v 8 8, bitField v 0 8]

/-- The write datagram: `a[6:0] | 0x80`, then the value (R91, R195). -/
def writeDatagram (a : ChipAddr) (v : Word) : DatagramBytes := msbFirst (a.setWidth 8 ||| 0x80) v

/-- The read datagram: `a & 0x7F`, then four dummy bytes `0x00` (R92, R197, R199). -/
def readDatagram (a : ChipAddr) : DatagramBytes := msbFirst (a.setWidth 8) 0

/-- `b[1] ++ b[2] ++ b[3] ++ b[4]`, most significant first; byte 0 is no part of it (R61). -/
def wordOfReply (b : DatagramBytes) : Word := b[1] ++ b[2] ++ b[3] ++ b[4]

end Sys2Proof.Machine
end

