-- ==== Sys2Proof/Machine/Chip.lean ====
section
/-! DEFINITION. The reference driver chip (R213 to R215, D26). It observes `cs` and the bytes shifted out (R210); no
rule of the block reads it, and the reply byte of a shift is the environment's (R212; log entry 20). -/

namespace Sys2Proof.Machine

/-- `cs` 0 to 1: `cnt <- 0`, `O <- D` (R214). -/
def Chip.select (c : Chip) : Chip := { c with count := 0, outWord := c.dataWord }

/-- The chip's reply to the next byte of a datagram, with status byte `st` (R214). After the fifth byte R214 states
no reply: a free value (log entry 14). -/
def Chip.reply (st : Byte) (c : Chip) : Byte :=
  match c.count with
  | 0 => st
  | 1 => bitField c.outWord 24 8
  | 2 => bitField c.outWord 16 8
  | 3 => bitField c.outWord 8 8
  | 4 => bitField c.outWord 0 8
  | n + 5 => Config.chipReplyBeyond n

/-- One byte shifted in: `inb[cnt] <- b; cnt <- cnt + 1` (R214). The in-buffer holds five bytes; a later byte is
counted and not kept (log entry 14). -/
def Chip.shift (b : Byte) (c : Chip) : Chip :=
  { c with inBuf := c.inBuf.setIfInBounds c.count b, count := c.count + 1 }

/-- A write datagram takes effect: `regs[a] <- v`, `D` unchanged (R215). -/
def Chip.writeReg (a : ChipAddr) (v : Word) (c : Chip) : Chip := { c with regs := c.regs.set a.toNat v a.isLt }

/-- A read datagram takes effect: `D <- regs[a]`, latched for the next datagram (R215). -/
def Chip.latchReg (a : ChipAddr) (c : Chip) : Chip := { c with dataWord := c.regs[a.toNat]'a.isLt }

/-- `cs` 1 to 0: with five bytes in, the write or the read of `inb`; otherwise nothing (R215). Bytes 1 to 4 of a
read are not looked at. -/
def Chip.release (c : Chip) : Chip :=
  if c.count = 5 then
    if c.inBuf[0].getLsbD 7 then c.writeReg (addrOperand c.inBuf[0]) (wordOfReply c.inBuf)
    else c.latchReg (addrOperand c.inBuf[0])
  else c

/-- The chip's view of an edge of `cs`, from `old` to `new` (R214, R215). -/
def Chip.csEdge (old new : Bool) (c : Chip) : Chip :=
  match old, new with
  | false, true => c.select
  | true, false => c.release
  | _, _ => c

/-- One whole datagram: select, five bytes, release (R194, R214, R215). -/
def Chip.datagram (b : DatagramBytes) (c : Chip) : Chip :=
  ((((((c.select).shift b[0]).shift b[1]).shift b[2]).shift b[3]).shift b[4]).release

end Sys2Proof.Machine
end

