-- ==== Sys2Proof/Machine/Ops.lean ====
section
/-! DEFINITION. The named operations on the state that the meanings share: interrupt entry and return, the receive
stage and the ring, the mailboxes, chip-select and the byte exchange. Each micro-step of the spec that has no
record (RX_POP, XCHG_PUT, XCHG_GET) stands here. -/

namespace Sys2Proof.Machine

/-! ### The interrupt context (60_exceptions.md) -/

/-- Taking the interrupt: the ISR context is entered and nothing is saved, since MAIN's state is left as it is
(R30, R246). The block raises no other exception (R240). -/
def enterIsr (s : State) : State := { s with rxu := { s.rxu with inIsr := true } }

/-- The return from the interrupt: the ISR context is left; there is no mask to restore (R247). -/
def leaveIsr (s : State) : State := { s with rxu := { s.rxu with inIsr := false } }

/-- RX_ISR may be taken: the interrupt is requested (R124) and the ISR is not running already (R248). -/
def rxIsrEnabled (s : State) : Bool := irqRx s && !s.rxu.inIsr

/-! ### The receive stage and the ring (40_link_receive.md) -/

/-- A frame reaches the receive stage (R122): lost when the link is down or the stage is full, else queued. -/
def arrive (f : Frame) (s : State) : State :=
  if !s.rxu.linkUp then s
  else if stageFull s then s
  else { s with rxu := { s.rxu with hwq := s.rxu.hwq ++ [f] } }

/-- The acknowledgement: the oldest frame leaves the receive stage (R125, R276). -/
def acknowledge (s : State) : State := { s with rxu := { s.rxu with hwq := s.rxu.hwq.tail } }

/-- `slot[head] <- f`, then `head <- (head + 1) mod RING_N` (R71, R125). -/
def storeFrame (f : Frame) (s : State) : State :=
  { s with rxu := { s.rxu with slots := s.rxu.slots.set s.rxu.head f, head := nextIndex s s.rxu.head } }

/-- The producer's work on one frame (R125): stored, or dropped when the ring is full, and acknowledged in both
branches. -/
def produce (s : State) : State :=
  match s.rxu.hwq with
  | [] => s
  | f :: _ => if ringFull s then acknowledge s else acknowledge (storeFrame f s)

/-- RECEIVE returns its count and its frames (R129). -/
def endReceive (s : State) : State :=
  { s with rxu := { s.rxu with rxBusy := false }, ret := some (.received s.rxu.rxOut.length s.rxu.rxOut) }

/-- One frame is copied out, then `tail` advances (R72, R128). -/
def takeFrame (s : State) : State :=
  { s with rxu := { s.rxu with
      rxOut := s.rxu.rxOut ++ [slotAt s s.rxu.tail],
      tail := nextIndex s s.rxu.tail,
      rxLeft := s.rxu.rxLeft - 1 } }

/-- RX_POP (R128): one drain micro-step, enabled while `rx_busy == 1`; otherwise no step. -/
def rxPop (s : State) : State :=
  if s.rxu.rxBusy then
    if s.rxu.rxLeft == 0 || s.rxu.tail == s.rxu.head then endReceive s else takeFrame s
  else s

/-! ### The mailboxes (41_link_transmit.md) -/

/-- `mb[i].frame <- f`, `mb[i].busy <- 1` (R79, R160). -/
def loadMailbox (i : Nat) (f : Frame) (s : State) : State :=
  { s with txu := { s.txu with mailboxes := s.txu.mailboxes.set i { busy := true, frame := f } } }

/-- `mb[i].busy <- 0`; the frame stays (R164, R166). -/
def freeMailboxAt (i : Nat) (s : State) : State :=
  { s with txu := { s.txu with mailboxes := s.txu.mailboxes.modify i fun m => { m with busy := false } } }

/-- A transmission ends: in loopback the frame is delivered to the receiver by the arrival rule, in the same step
(R164, R165). -/
def transmitted (f : Frame) (s : State) : State := if s.rxu.loopback then arrive f s else s

/-! ### Chip-select and the byte exchange (42_serial_protocol.md) -/

/-- `cs <- b`; the chip sees the edge (R33, R210). -/
def setCs (b : Bool) (s : State) : State :=
  { s with sre := { s.sre with cs := b }, chip := s.chip.csEdge s.sre.cs b }

/-- The SRE's record of an operation MAIN is blocked in: `sre_caller_waiting <- 1`, `sre_addr <- a` (R195, R197). -/
def latchCaller (a : ChipAddr) (s : State) : State :=
  { s with sre := { s.sre with callerWaiting := true, addr := a } }

/-- A transaction starts: the datagram is loaded, `k <- 0`, `cs <- 1`, `eng <- PUT` (R194, R195, R197, R199). -/
def startTransaction (ph : SrePhase) (b : DatagramBytes) (s : State) : State :=
  setCs true { s with sre := { s.sre with phase := ph, tx := b, k := 0, eng := .put } }

/-- XCHG_PUT (R191), enabled when `eng == PUT` and `txe == 1`; otherwise it holds. -/
def xchgPut (s : State) : State :=
  if s.sre.eng == .put && s.sre.txe then
    { s with sre := { s.sre with txdr := s.sre.tx[s.sre.k], txe := false, eng := .get } }
  else s

/-- A serial byte may be shifted: `cs == 1`, `txe == 0`, `rxne == 0` (R192). -/
def shiftEnabled (s : State) : Bool := s.sre.cs && !s.sre.txe && !s.sre.rxne

/-- One serial byte shifted with reply `r`: the chip receives `txdr` (R192). -/
def shiftByte (r : Byte) (s : State) : State :=
  { s with sre := { s.sre with rxdr := r, rxne := true, txe := true }, chip := s.chip.shift s.sre.txdr }

/-- The register operation ends and MAIN resumes with `v` (R196, R200). -/
def resumeCaller (v : CallResult) (s : State) : State :=
  { s with sre := { s.sre with eng := .idle, callerWaiting := false }, ret := some v }

/-- The end of a transaction: `cs <- 0`, then by phase the end of a write (R196), the settling delay (R198) or the
end of a read (R200). -/
def endTransaction (s : State) : State :=
  let s := setCs false s
  match s.sre.phase with
  | .wr => resumeCaller .written s
  | .rd1 => { s with sre := { s.sre with eng := .settle } }
  | .rd2 =>
    resumeCaller (.readValue (wordOfReply s.sre.rx)) { s with sre := { s.sre with result := wordOfReply s.sre.rx } }

/-- `rx[k] <- rxdr`, `rxne <- 0` (R193). -/
def takeReply (s : State) : State :=
  { s with sre := { s.sre with rx := s.sre.rx.set s.sre.k s.sre.rxdr, rxne := false } }

/-- XCHG_GET (R193), enabled when `eng == GET` and `rxne == 1`; otherwise it holds. -/
def xchgGet (s : State) : State :=
  if s.sre.eng == .get && s.sre.rxne then
    if s.sre.k.val < 4 then
      { takeReply s with sre := { (takeReply s).sre with k := s.sre.k + 1, eng := .put } }
    else endTransaction (takeReply s)
  else s

/-- The SRE's next micro-step (R201). It steps for MAIN, so it takes none while the ISR runs (R30, R245); in IDLE and
SETTLE, and while a readiness flag is awaited, it has none. -/
def sreMicro (s : State) : State :=
  if s.rxu.inIsr then s
  else match s.sre.eng with
    | .idle => s
    | .put => xchgPut s
    | .get => xchgGet s
    | .settle => s

/-- The free reply bytes of the next lone datagram (R212, log entry 12). -/
def drawReplies (s : State) : DatagramBytes := Vector.ofFn fun j => Config.replyByte (s.draws + j.val)

/-- A whole transaction of the datagram `b` (R194), as the fifteen exchange steps leave the port, with reply bytes
`q`. -/
def wholeTransaction (b q : DatagramBytes) (s : State) : State :=
  { s with
    sre := { s.sre with tx := b, rx := q, txdr := b[4], rxdr := q[4], k := 4, cs := false, txe := true, rxne := false },
    chip := s.chip.datagram b,
    draws := s.draws + 5 }

/-! ### Node reset (70_reset_and_hazards.md) -/

/-- A restart of the node: every element of the block at its reset value from any state (R270, R271), `cs` falling
with the chip watching. The parameters, the chip, the inputs and the draw counter are not the block's
(log entry 15). -/
def nodeReset (s : State) : State :=
  { State.resetWith s.cfg with chip := s.chip.csEdge s.sre.cs false, draws := s.draws, inputs := s.inputs }

end Sys2Proof.Machine
end

