-- ==== Sys2Proof/Machine/Datagram.lean ====
section
/-! DEFINITION. The two datagrams as instructions of their own (R91, R92, R194, R215): one whole transaction between
the SRE and the driver chip, outside any register operation (DESIGN CHOICE, log entry 11). -/

namespace Sys2Proof.Machine

/-- DGRAM_WRITE: the chip writes the register (R215); a busy engine refuses (R202). -/
def execDgramWrite (a : ChipAddr) (v : Word) (s : State) : Host.Outcome State Fault Refusal :=
  if s.sre.eng == .idle then .next (wholeTransaction (writeDatagram a v) (drawReplies s) s)
  else .refused .serialBusy

/-- DGRAM_READ: the chip latches the register for the next datagram (R215); a busy engine refuses (R202). -/
def execDgramRead (a : ChipAddr) (s : State) : Host.Outcome State Fault Refusal :=
  if s.sre.eng == .idle then .next (wholeTransaction (readDatagram a) (drawReplies s) s)
  else .refused .serialBusy

end Sys2Proof.Machine
end

