-- ==== Sys2Proof/Machine/LinkReceive.lean ====
section
/-! DEFINITION. The receive family (40_link_receive.md): LINK_INIT, RECEIVE, RX_ISR, FRAME_ARRIVAL. -/

namespace Sys2Proof.Machine

/-- LINK_INIT (R120, R121). -/
def execLinkInit (lb : Bool) (s : State) : Host.Outcome State Fault Refusal :=
  if s.rxu.linkUp then .refused .linkReinit
  else .next { s with
    rxu := { s.rxu with loopback := lb, head := 0, tail := 0, linkUp := true },
    txu := { s.txu with mailboxes := s.txu.mailboxes.map fun m => { m with busy := false } } }

/-- RECEIVE's start (R127, R121); RX_POP micro-steps follow until `rxPop` ends it (R128, R129). -/
def execReceive (maxN : BitVec 16) (s : State) : Host.Outcome State Fault Refusal :=
  if !s.rxu.linkUp then .refused .linkNotInitialised
  else .next { s with rxu := { s.rxu with rxOut := [], rxLeft := maxN, rxBusy := true } }

/-- RX_ISR (R124, R125, R126, R246, R247): entry, the producer's work, return. Not enabled, it has no step. -/
def execRxIsr (s : State) : Host.Outcome State Fault Refusal :=
  if rxIsrEnabled s then .next (leaveIsr (produce (enterIsr s))) else .next s

/-- FRAME_ARRIVAL (R122, R123): every identifier and every length is accepted. -/
def execFrameArrival (f : Frame) (s : State) : Host.Outcome State Fault Refusal := .next (arrive f s)

end Sys2Proof.Machine
end

