-- ==== Sys2Proof/Machine/LinkTransmit.lean ====
section
/-! DEFINITION. The transmit family (41_link_transmit.md): SEND, TX_DONE. -/

namespace Sys2Proof.Machine

/-- SEND (R160 to R163): the lowest free mailbox is loaded, or FAIL is returned and nothing else changes. -/
def execSend (f : Frame) (s : State) : Host.Outcome State Fault Refusal :=
  if !s.rxu.linkUp then .refused .linkNotInitialised
  else if lenMax < f.len.toNat then .refused .sendLength
  else match freeMailbox s with
    | none => .next { s with ret := some (.sent false) }
    | some i => .next { loadMailbox i f s with ret := some (.sent true) }

/-- TX_DONE (R164 to R166, R99): a free mailbox has no step. -/
def execTxDone (i : BitVec 8) (s : State) : Host.Outcome State Fault Refusal :=
  if s.cfg.nMailbox ≤ i.toNat then .refused .noSuchMailbox
  else match s.txu.mailboxes[i.toNat]? with
    | none => .next s
    | some m => if m.busy then .next (transmitted m.frame (freeMailboxAt i.toNat s)) else .next s

end Sys2Proof.Machine
end

