-- ==== Sys2Proof/Machine/Serial.lean ====
section
/-! DEFINITION. The serial family (42_serial_protocol.md): REG_WRITE, REG_READ, SPI_SHIFT, SETTLE_ELAPSED. -/

namespace Sys2Proof.Machine

/-- REG_WRITE's start (R195, R202); the SRE's micro-steps end it (R196). -/
def execRegWrite (a : BitVec 8) (v : Word) (s : State) : Host.Outcome State Fault Refusal :=
  if s.sre.eng == .idle then
    .next (startTransaction .wr (writeDatagram (addrOperand a) v) (latchCaller (addrOperand a) s))
  else .refused .serialBusy

/-- REG_READ's start of phase 1 (R197, R202); always two phases (R206), ended by R200. -/
def execRegRead (a : BitVec 8) (s : State) : Host.Outcome State Fault Refusal :=
  if s.sre.eng == .idle then
    .next (startTransaction .rd1 (readDatagram (addrOperand a)) (latchCaller (addrOperand a) s))
  else .refused .serialBusy

/-- SPI_SHIFT (R192). Not enabled, it has no step (R201). -/
def execSpiShift (r : Byte) (s : State) : Host.Outcome State Fault Refusal :=
  if shiftEnabled s then .next (shiftByte r s) else .next s

/-- SETTLE_ELAPSED (R199): phase 2 of the read starts. Not in SETTLE, it has no step (R201). -/
def execSettleElapsed (s : State) : Host.Outcome State Fault Refusal :=
  if s.sre.eng == .settle then .next (startTransaction .rd2 (readDatagram s.sre.addr) s) else .next s

end Sys2Proof.Machine
end

