-- ==== Sys2Proof/Machine/Dispatch.lean ====
section
/-! DEFINITION. One arm per constructor of Instr. -/

namespace Sys2Proof.Machine

def exec (i : Instr) (s : State) : Host.Outcome State Fault Refusal :=
  match i with
  | .linkInit lb => Sys2Proof.Machine.execLinkInit lb s
  | .receive maxN => Sys2Proof.Machine.execReceive maxN s
  | .send f => Sys2Proof.Machine.execSend f s
  | .regWrite a v => Sys2Proof.Machine.execRegWrite a v s
  | .regRead a => Sys2Proof.Machine.execRegRead a s
  | .rxIsr => Sys2Proof.Machine.execRxIsr s
  | .frameArrival f => Sys2Proof.Machine.execFrameArrival f s
  | .txDone mb => Sys2Proof.Machine.execTxDone mb s
  | .spiShift r => Sys2Proof.Machine.execSpiShift r s
  | .settleElapsed => Sys2Proof.Machine.execSettleElapsed s
  | .dgramWrite a v => Sys2Proof.Machine.execDgramWrite a v s
  | .dgramRead a => Sys2Proof.Machine.execDgramRead a s

end Sys2Proof.Machine
end

