-- ==== Sys2Proof/Machine/Schedule.lean ====
section
/-! DEFINITION. Whose step is next, and what that agent does with its turn: a hold, its own micro-step, or the next
record it offers (R6, R70, R96, R98, R202, R242, R245, R270; log entries 4 to 7 and 26). -/

namespace Sys2Proof.Machine

/-! ### The inputs -/

/-- The records agent `a` will offer, next one first. -/
def Inputs.pending (a : Agent) (n : Inputs) : List Raw :=
  match a with
  | .main => n.main
  | .isr => n.isr
  | .bus => n.bus
  | .serialEnv => n.serialEnv
  | .sre => n.sre
  | .chip => n.chip

/-- The records agent `a` will offer become `rs`. -/
def Inputs.setPending (a : Agent) (rs : List Raw) (n : Inputs) : Inputs :=
  match a with
  | .main => { n with main := rs }
  | .isr => { n with isr := rs }
  | .bus => { n with bus := rs }
  | .serialEnv => { n with serialEnv := rs }
  | .sre => { n with sre := rs }
  | .chip => { n with chip := rs }

/-- The rest of the schedule becomes `ts`. -/
def setTurns (ts : List Turn) (s : State) : State := { s with inputs := { s.inputs with turns := ts } }

/-- The records agent `a` will offer become `rs`. -/
def setPending (a : Agent) (rs : List Raw) (s : State) : State := { s with inputs := s.inputs.setPending a rs }

/-- Agent `a` has the next turn. -/
def giveTurn (a : Agent) (s : State) : State := setTurns (.agent a :: s.inputs.turns) s

/-- Agent `a` has the next turn and offers `r` at it. -/
def giveOffer (a : Agent) (r : Raw) (s : State) : State := giveTurn a (setPending a (r :: s.inputs.pending a) s)

/-! ### An agent's turn -/

/-- The agent holds: MAIN takes no step while the ISR runs (R30) or while it is blocked in a register operation
(R38, R190), and the SRE, which steps for MAIN, none while the ISR runs (R245) and none before MAIN has stepped (R270;
log entry 26). No other agent ever holds: a frame may arrive at any time (R122). -/
def holds (a : Agent) (s : State) : Bool :=
  match a with
  | .main => s.rxu.inIsr || s.sre.callerWaiting
  | .sre => !s.mainStepped || s.rxu.inIsr
  | .isr => false
  | .bus => false
  | .serialEnv => false
  | .chip => false

/-- REG_WRITE or REG_READ. -/
def isRegisterOp : Instr → Bool
  | .linkInit _ => false
  | .receive _ => false
  | .send _ => false
  | .regWrite _ _ => true
  | .regRead _ => true
  | .rxIsr => false
  | .frameArrival _ => false
  | .txDone _ => false
  | .spiShift _ => false
  | .settleElapsed => false
  | .dgramWrite _ _ => false
  | .dgramRead _ => false

/-- The record `r` is a register operation. -/
def offersRegisterOp (r : Raw) : Bool :=
  match decode r with
  | .ok i => isRegisterOp i
  | .error _ => false

/-- MAIN, blocked in a register operation, is given a turn at which it offers another while the engine is busy: no
well-formed run does that, and the model refuses it (R202; log entry 7). -/
def offersWhileBusy (a : Agent) (s : State) : Bool :=
  match a with
  | .main => !s.rxu.inIsr && s.sre.callerWaiting && s.sre.eng != .idle && s.inputs.main.head?.any offersRegisterOp
  | .sre => false
  | .isr => false
  | .bus => false
  | .serialEnv => false
  | .chip => false

/-- Agent `a` steps: MAIN's first step since reset is recorded (R270). -/
def markStep (a : Agent) (s : State) : State := { s with mainStepped := s.mainStepped || a == .main }

/-- The agent is inside an operation whose micro-steps it takes by itself (R96): MAIN in a drain (R128), the SRE in a
transaction or the settling delay (R201). -/
def inMicroSteps (a : Agent) (s : State) : Bool :=
  match a with
  | .main => s.rxu.rxBusy
  | .sre => s.sre.eng != .idle
  | .isr => false
  | .bus => false
  | .serialEnv => false
  | .chip => false

/-- The agent's next micro-step. -/
def microStep (a : Agent) (s : State) : State :=
  match a with
  | .main => rxPop s
  | .sre => sreMicro s
  | .isr => s
  | .bus => s
  | .serialEnv => s
  | .chip => s

/-- The refusal of a word that spells no operation (R97). A length cannot be wrong here: offered words have their
format's width. -/
def refusalOf : Reject → Refusal
  | .reservedEncoding => .reservedEncoding
  | .badLength => .reservedEncoding

/-- Agent `a` offers `r`: decoded (R96, R97), checked against its issuer (R98), and run. -/
def offer (a : Agent) (r : Raw) (s : State) : Host.Outcome State Fault Refusal :=
  match decode r with
  | .error e => .refused (refusalOf e)
  | .ok i => if i.issuer = a then exec i s else .refused .wrongIssuer

/-- An agent with nothing to offer: the ISR takes the interrupt, which needs no record (R96, R124); the others have
no step. -/
def spontaneous (a : Agent) (s : State) : Host.Outcome State Fault Refusal :=
  match a with
  | .isr => exec .rxIsr s
  | .main => .next s
  | .bus => .next s
  | .serialEnv => .next s
  | .sre => .next s
  | .chip => .next s

/-- The turn of agent `a`. -/
def agentTurn (a : Agent) (s : State) : Host.Outcome State Fault Refusal :=
  if holds a s then
    if offersWhileBusy a s then .refused .serialBusy else .next s
  else if inMicroSteps a s then .next (microStep a s)
  else match s.inputs.pending a with
    | [] => spontaneous a s
    | r :: rs => offer a r (markStep a (setPending a rs s))

/-- One turn of the schedule. -/
def takeTurn (t : Turn) (s : State) : Host.Outcome State Fault Refusal :=
  match t with
  | .agent a => agentTurn a s
  | .nodeReset => .next (nodeReset s)

/-- With no turn scheduled the block takes by itself the micro-step that is enabled (R96), MAIN's drain first; with
none it stays as it is (log entry 5). -/
def unscheduled (s : State) : State :=
  if !holds .main s && inMicroSteps .main s then rxPop s
  else if holds .sre s then s
  else sreMicro s

/-- One step: the next turn of the schedule. -/
def scheduledStep (s : State) : Host.Outcome State Fault Refusal :=
  match s.inputs.turns with
  | [] => .next (unscheduled s)
  | t :: ts => takeTurn t (setTurns ts s)

/-- The agent a table word is offered by: its issuer, or MAIN for a word that spells no operation. -/
def issuerOfRaw (r : Raw) : Agent :=
  match decode r with
  | .ok i => i.issuer
  | .error _ => .main

end Sys2Proof.Machine
end

