-- ==== Sys2Proof/Machine/Step.lean ====
section
/-! DEFINITION. The machine's step and the host's way of placing one instruction. -/

namespace Sys2Proof.Machine

/-- One step of the machine (R70). -/
def step (s : State) : Host.Outcome State Fault Refusal := scheduledStep s

/-- The instruction of the table word `w` is the next its issuer offers, and its issuer has the next turn (log
entry 4), whichever agent it is: MAIN's first step is taken as past, for the SRE's words (log entry 26). -/
def State.withFetchWord (s : State) (nbits w : Nat) : State :=
  giveOffer (issuerOfRaw (rawOfTable nbits w)) (rawOfTable nbits w) { s with mainStepped := true }

end Sys2Proof.Machine
end

