-- ==== Sys2Proof/Machine/Driver.lean ====
section
/-! DEFINITION. Runs of several steps, as the spec's text syntax names them (R102: `!chip`, `@arrive+isr`) and as its
test programs use them. Every run is steps of the machine and nothing else. -/

namespace Sys2Proof.Machine

/-- Go on from a next state; a fault or a refusal ends the run. -/
def andThen (o : Host.Outcome State Fault Refusal) (f : State → Host.Outcome State Fault Refusal) :
    Host.Outcome State Fault Refusal :=
  match o with
  | .next s => f s
  | .fault r => .fault r
  | .refused r => .refused r

/-- `n` steps, by the schedule as it stands. -/
def runFor : Nat → State → Host.Outcome State Fault Refusal
  | 0, s => .next s
  | n + 1, s => andThen (step s) (runFor n)

/-- The issuer of `i` offers `i`, and steps. -/
def issue (i : Instr) (s : State) : Host.Outcome State Fault Refusal := step (giveOffer i.issuer (encode i) s)

/-- Agent `a` is given a turn, and steps. -/
def turnOf (a : Agent) (s : State) : Host.Outcome State Fault Refusal := step (giveTurn a s)

/-- `n` turns of agent `a`. -/
def turnsOf (a : Agent) : Nat → State → Host.Outcome State Fault Refusal
  | 0, s => .next s
  | n + 1, s => andThen (turnOf a s) (turnsOf a n)

/-- One byte exchange (R194): XCHG_PUT, SPI_SHIFT with the reply `reply` gives, XCHG_GET. -/
def exchange (reply : State → Byte) (s : State) : Host.Outcome State Fault Refusal :=
  andThen (turnOf .sre s) fun s => andThen (issue (.spiShift (reply s)) s) fun s => turnOf .sre s

/-- `n` byte exchanges from byte `j` on, the reply to byte `j` being `reply j`. -/
def exchanges (reply : Nat → State → Byte) (j : Nat) : Nat → State → Host.Outcome State Fault Refusal
  | 0, s => .next s
  | n + 1, s => andThen (exchange (reply j) s) (exchanges reply (j + 1) n)

/-- REG_WRITE and its five exchanges: 16 steps (R201). -/
def regWriteRun (reply : Nat → State → Byte) (a : BitVec 8) (v : Word) (s : State) :
    Host.Outcome State Fault Refusal :=
  andThen (issue (.regWrite a v) s) (exchanges reply 0 5)

/-- REG_READ, five exchanges, SETTLE_ELAPSED, five exchanges: 32 steps (R201). -/
def regReadRun (reply1 reply2 : Nat → State → Byte) (a : BitVec 8) (s : State) :
    Host.Outcome State Fault Refusal :=
  andThen (issue (.regRead a) s) fun s => andThen (exchanges reply1 0 5 s) fun s =>
    andThen (issue .settleElapsed s) (exchanges reply2 0 5)

/-- The reference chip's replies with status byte `st` (R102, R214). -/
def chipReplies (st : Byte) : Nat → State → Byte := fun _ s => s.chip.reply st

/-- Five given reply bytes. -/
def givenReplies (q : DatagramBytes) : Nat → State → Byte := fun j _ => q.getD j 0

/-- `@arrive+isr f` (R102). -/
def arriveIsr (f : Frame) (s : State) : Host.Outcome State Fault Refusal :=
  andThen (issue (.frameArrival f) s) (turnOf .isr)

/-- `@arrive+isr` for each frame of a list, in order. -/
def arriveIsrAll : List Frame → State → Host.Outcome State Fault Refusal
  | [], s => .next s
  | f :: fs, s => andThen (arriveIsr f s) (arriveIsrAll fs)

/-- Turns of MAIN while a drain is in progress, at most `n` of them. -/
def drainTurns : Nat → State → Host.Outcome State Fault Refusal
  | 0, s => .next s
  | n + 1, s => if s.rxu.rxBusy then andThen (turnOf .main s) (drainTurns n) else .next s

/-- RECEIVE and its RX_POP turns, at most `max_n + 1` of them (R130). -/
def receiveRun (maxN : BitVec 16) (s : State) : Host.Outcome State Fault Refusal :=
  andThen (issue (.receive maxN) s) (drainTurns (maxN.toNat + 1))

end Sys2Proof.Machine
end

