-- ==== Sys2Proof/Safety.lean ====
section
/-! DEFINITION. What holds of every state a run from reset reaches, the end of a run, and the words the claims use. -/

namespace Sys2Proof.Machine

/-- The receive unit is consistent with the parameters: index ranges (R23, R24), sizes (R22, R27), no frame staged
while the link is down (R120), no drain then (R127), the ISR never left open (R30, R125), and the drain within
its storage (R31, R127). -/
structure RxuInv (p : Params) (r : Rxu) : Prop where
  slots_length : r.slots.length = p.ringN
  head_lt : r.head < p.ringN
  tail_lt : r.tail < p.ringN
  stage_le : r.hwq.length ≤ p.hwRxDepth
  down_staged : r.linkUp = false → r.hwq = []
  down_idle : r.linkUp = false → r.rxBusy = false
  not_in_isr : r.inIsr = false
  storage_le : r.rxBusy = true → r.rxOut.length + r.rxLeft.toNat < 2 ^ 16

/-- There are `N_MAILBOX` mailboxes (R32). -/
def TxuInv (p : Params) (t : Txu) : Prop := t.mailboxes.length = p.nMailbox

/-- What `eng` says of `cs`, the readiness flags and the blocked caller (R38, R40, R190, R194, R201), and in SETTLE of
the phase (R198). -/
def SreInv (e : Sre) : Prop :=
  match e.eng with
  | .idle => e.cs = false ∧ e.txe = true ∧ e.rxne = false ∧ e.callerWaiting = false
  | .put => e.cs = true ∧ e.txe = true ∧ e.rxne = false ∧ e.callerWaiting = true
  | .get => e.cs = true ∧ e.txe = e.rxne ∧ e.callerWaiting = true
  | .settle => e.cs = false ∧ e.txe = true ∧ e.rxne = false ∧ e.callerWaiting = true ∧ e.phase = .rd1

/-- The invariant of the machine: what every step keeps and what holds after reset. MAIN is never in a drain and in a
register operation at once (R190), and before its first step the link is down, the engine IDLE and every mailbox free (R270). -/
structure Inv (s : State) : Prop where
  legal : s.cfg.Legal
  rxu : RxuInv s.cfg s.rxu
  txu : TxuInv s.cfg s.txu
  sre : SreInv s.sre
  one_operation : s.rxu.rxBusy = true → s.sre.callerWaiting = false
  not_started : s.mainStepped = false →
    s.rxu.linkUp = false ∧ s.sre.eng = .idle ∧ ∀ m ∈ s.txu.mailboxes, m.busy = false

/-- The reference chip has counted the bytes of the transaction in flight, and holds them (R194, R213, R214): `k`
bytes in PUT, and in GET also the one just shifted. -/
def ChipInStep (s : State) : Prop :=
  match s.sre.eng with
  | .idle => True
  | .put => s.chip.count = s.sre.k.val ∧ ∀ j < s.sre.k.val, s.chip.inBuf[j]? = s.sre.tx[j]?
  | .get =>
    s.chip.count = s.sre.k.val + s.sre.rxne.toNat ∧ (s.sre.rxne = false → s.sre.txdr = s.sre.tx[s.sre.k]) ∧
      ∀ j < s.sre.k.val + s.sre.rxne.toNat, s.chip.inBuf[j]? = s.sre.tx[j]?
  | .settle => True

/-- MAIN can issue a new operation: it is neither held nor in a drain. -/
abbrev MainReady (s : State) : Prop := holds .main s = false ∧ s.rxu.rxBusy = false

/-- The run has ended (D32): MAIN has no operation left and is not blocked, no drain is in progress, the engine is
IDLE and no interrupt is requested. -/
def runEnded (s : State) : Bool :=
  s.inputs.main.isEmpty && !s.sre.callerWaiting && !s.rxu.rxBusy && s.sre.eng == .idle && !irqRx s

/-- The cases in which an operation is refused (R242): the four of R99 and R121, and SerialBusy (R202; for a lone
datagram log entry 11). -/
def RefusalCase (i : Instr) (s : State) (r : Refusal) : Prop :=
  (r = .linkReinit ∧ s.rxu.linkUp = true ∧ ∃ lb, i = .linkInit lb) ∨
  (r = .linkNotInitialised ∧ s.rxu.linkUp = false ∧ ((∃ n, i = .receive n) ∨ ∃ f, i = .send f)) ∨
  (r = .sendLength ∧ s.rxu.linkUp = true ∧ ∃ f, i = .send f ∧ 8 < f.len.toNat) ∨
  (r = .noSuchMailbox ∧ ∃ j, i = .txDone j ∧ s.cfg.nMailbox ≤ j.toNat) ∨
  (r = .serialBusy ∧ s.sre.eng ≠ .idle ∧ ((∃ a v, i = .regWrite a v) ∨ (∃ a, i = .regRead a) ∨
    (∃ a v, i = .dgramWrite a v) ∨ ∃ a, i = .dgramRead a))

/-- What a step can do to the frames: those in the receive stage, those in the ring, and those copied out by the
drain in progress (R73, R74). -/
inductive FrameFlow (s t : State) : Prop where
  /-- nothing moves -/
  | still (ring : ringFrames t = ringFrames s) (stage : t.rxu.hwq = s.rxu.hwq) (out : t.rxu.rxOut = s.rxu.rxOut)
  /-- a frame enters the receive stage, at its end (R122) -/
  | arrived (f : Frame) (ring : ringFrames t = ringFrames s) (stage : t.rxu.hwq = s.rxu.hwq ++ [f])
      (room : s.rxu.hwq.length < s.cfg.hwRxDepth) (up : s.rxu.linkUp = true) (out : t.rxu.rxOut = s.rxu.rxOut)
  /-- the oldest staged frame enters the ring, at its end (R125) -/
  | stored (f : Frame) (ring : ringFrames t = ringFrames s ++ [f]) (stage : s.rxu.hwq = f :: t.rxu.hwq)
      (room : occupancy s < s.cfg.ringN - 1) (out : t.rxu.rxOut = s.rxu.rxOut)
  /-- the oldest staged frame is dropped: the ring is full (R126) -/
  | dropped (f : Frame) (ring : ringFrames t = ringFrames s) (stage : s.rxu.hwq = f :: t.rxu.hwq)
      (full : occupancy s = s.cfg.ringN - 1) (out : t.rxu.rxOut = s.rxu.rxOut)
  /-- the oldest frame of the ring is copied out, at the end of the caller's storage (R128) -/
  | delivered (f : Frame) (ring : ringFrames s = f :: ringFrames t) (stage : t.rxu.hwq = s.rxu.hwq)
      (out : t.rxu.rxOut = s.rxu.rxOut ++ [f])
  /-- a new RECEIVE starts, with no drain in progress, with empty storage (R127) -/
  | restarted (free : s.rxu.rxBusy = false) (busy : t.rxu.rxBusy = true) (up : s.rxu.linkUp = true)
      (ring : ringFrames t = ringFrames s) (stage : t.rxu.hwq = s.rxu.hwq) (out : t.rxu.rxOut = [])
  /-- LINK_INIT, from a link that is down, leaves it up and the ring empty (R120) -/
  | initialised (down : s.rxu.linkUp = false) (up : t.rxu.linkUp = true) (ring : ringFrames t = [])
      (stage : t.rxu.hwq = s.rxu.hwq)
      (out : t.rxu.rxOut = s.rxu.rxOut)
  /-- a node reset loses every frame (R271) -/
  | restart (turn : s.inputs.turns.head? = some .nodeReset) (ring : ringFrames t = []) (stage : t.rxu.hwq = [])
      (out : t.rxu.rxOut = [])

end Sys2Proof.Machine
end

