-- ==== Sys2Proof/Certificates/Slice0/Obligations.lean ====
section
/-! DEFINITION. The statements for the provers. `exec i s` is written with the meaning's next state in full, so such
a statement is also its instruction's frame: every field not named in `{ s with … }` is unchanged. -/

open Sys2Proof Sys2Proof.Machine

/-! ### Encoding -/

/-- R96, R100, R91, R92: the decoder gives back every encoded instruction, every operand at every value. -/
def Obligations.DecodeOfEncode : Prop := ∀ i : Instr, decode (encode i) = .ok i

/-- R96, R97: a word the decoder accepts is the encoding of what it decodes to; no bit of it is dropped. -/
def Obligations.EncodeOfDecode : Prop := ∀ (r : Raw) (i : Instr), decode r = .ok i → encode i = r

/-- spec/opcode_table.json: the decoder, written from R96, gives an instruction of a row exactly on the words that
agree with the row's match under its mask. -/
def Obligations.DecodeAgreesWithOpcodeTable : Prop :=
  (∀ row ∈ recordTable, ∀ o : RecordBits,
    (o &&& row.2.2 = row.2.1) ↔ ∃ i, decode (.opr o) = .ok i ∧ i.mnemonic = row.1) ∧
  (∀ row ∈ datagramTable, ∀ g : DatagramBits,
    (g &&& row.2.2 = row.2.1) ↔ ∃ i, decode (.dgram g) = .ok i ∧ i.mnemonic = row.1)

/-- R97: reserved op codes, reserved bits and unused fields that are not zero are refused, by the decoder and by the
step of the agent that offers them. -/
def Obligations.ReservedRecordsRefused : Prop :=
  ∀ o : RecordBits,
    (let r := OpRecord.ofBits o
     r.op ∈ [0x0#4, 0x6#4, 0x7#4, 0xD#4, 0xE#4, 0xF#4] ∨ r.reserved ≠ 0 ∨
     (r.op ∈ [0x1#4] ∧ (bitField r.a 1 7 ≠ 0 ∨ r.b ≠ 0 ∨ r.c ≠ 0 ∨ r.p ≠ 0)) ∨
     (r.op ∈ [0x2#4] ∧ (r.a ≠ 0 ∨ r.c ≠ 0 ∨ r.p ≠ 0)) ∨
     (r.op ∈ [0x3#4, 0x9#4] ∧ (bitField r.a 4 4 ≠ 0 ∨ bitField r.b 11 5 ≠ 0 ∨ r.c ≠ 0)) ∨
     (r.op ∈ [0x4#4] ∧ (r.b ≠ 0 ∨ r.p ≠ 0)) ∨
     (r.op ∈ [0x5#4, 0xA#4, 0xB#4] ∧ (r.b ≠ 0 ∨ r.c ≠ 0 ∨ r.p ≠ 0)) ∨
     (r.op ∈ [0x8#4, 0xC#4] ∧ (r.a ≠ 0 ∨ r.b ≠ 0 ∨ r.c ≠ 0 ∨ r.p ≠ 0))) →
    decode (.opr o) = .error .reservedEncoding ∧
    ∀ (a : Agent) (s : State), holds a s = false → inMicroSteps a s = false →
      step (giveOffer a (.opr o) s) = .refused .reservedEncoding

/-- Words of 95_test_vectors.md 2.3 and of R91 and R92, read by the decoder. -/
def Obligations.DecodesTheSpecsWords : Prop :=
  decodeTableWord 128 0x00000000000000000000000000000101 = some (.linkInit true) ∧
  decodeTableWord 128 0x00000000000000050000000007010103 = some (.send ⟨0x701, 1, #v[5, 0, 0, 0, 0, 0, 0, 0]⟩) ∧
  decodeTableWord 128 0x00000000000000001234567800002104 = some (.regWrite 0x21 0x12345678) ∧
  decodeTableWord 128 0x0000000000000000000000000000020A = some (.txDone 2) ∧
  decodeTableWord 128 0x00000000000000000000000000000301 = none ∧
  decodeTableWord 40 0xA112345678 = some (.dgramWrite 0x21 0x12345678) ∧
  decodeTableWord 40 0x2100000000 = some (.dgramRead 0x21)

/-- R101: a byte string is decoded only when it has 5 or 16 bytes; and R60, R90: a datagram's bytes, byte 0 first,
decode as the datagram does. -/
def Obligations.DecodeOfBytes : Prop :=
  (∀ bs : List Byte, bs.length ≠ 5 → bs.length ≠ 16 → decodeBytes bs = .error .badLength) ∧
  (∀ b : DatagramBytes, decodeBytes b.toList = decode (.dgram (datagramOfBytes b)))

/-- R91 and R92: the bits of the datagrams the SRE builds, and R60: the bytes they travel as. -/
def Obligations.RegisterDatagramBits : Prop :=
  ∀ (a : BitVec 8) (v : Word),
    (let g := datagramOfBytes (writeDatagram (addrOperand a) v)
     g.getLsbD 39 = true ∧ bitField g 32 7 = bitField a 0 7 ∧ bitField g 0 32 = v) ∧
    (let g := datagramOfBytes (readDatagram (addrOperand a))
     g.getLsbD 39 = false ∧ bitField g 32 7 = bitField a 0 7 ∧ bitField g 0 32 = 0) ∧
    datagramBytes (datagramOfBytes (writeDatagram (addrOperand a) v)) =
      #v[(a &&& 0x7F) ||| 0x80, bitField v 24 8, bitField v 16 8, bitField v 8 8, bitField v 0 8]

/-! ### The step -/

/-- The step of an agent that neither holds nor is inside an operation decodes the next record the agent offers and,
when it is the record's issuer, is exec of it at the state with that turn and that record taken off the inputs and the
agent's step marked (log entries 4 and 26). -/
def Obligations.StepRunsDecodedInstruction : Prop :=
  ∀ (s : State) (a : Agent) (ts : List Turn) (r : Raw) (rs : List Raw) (i : Instr),
    s.inputs.turns = .agent a :: ts → s.inputs.pending a = r :: rs → holds a s = false →
    inMicroSteps a s = false → decode r = .ok i → i.issuer = a →
    step s = exec i (markStep a (setPending a rs (setTurns ts s)))

/-- The host's placing of a table word: the very next step is exec of the instruction the decoder reads, at the very
state it was placed in, MAIN's first step taken as past (log entries 4 and 26). -/
def Obligations.FetchWordRunsNext : Prop :=
  ∀ (s : State) (nbits w : Nat) (i : Instr),
    decodeTableWord nbits w = some i → holds i.issuer { s with mainStepped := true } = false →
    inMicroSteps i.issuer s = false →
    step (s.withFetchWord nbits w) = exec i { s with mainStepped := true }

/-- R98, and the issuers of R96: a record offered by an agent that is not its issuer is refused. -/
def Obligations.WrongIssuerRefused : Prop :=
  (∀ (s : State) (a : Agent) (i : Instr), holds a s = false → inMicroSteps a s = false → i.issuer ≠ a →
    step (giveOffer a (encode i) s) = .refused .wrongIssuer) ∧
  Instr.rxIsr.issuer = .isr ∧ (∀ f, (Instr.frameArrival f).issuer = .bus) ∧ (∀ i, (Instr.txDone i).issuer = .bus) ∧
  (∀ r, (Instr.spiShift r).issuer = .serialEnv) ∧ Instr.settleElapsed.issuer = .serialEnv ∧
  (∀ lb, (Instr.linkInit lb).issuer = .main) ∧ (∀ n, (Instr.receive n).issuer = .main) ∧
  (∀ f, (Instr.send f).issuer = .main) ∧ (∀ a v, (Instr.regWrite a v).issuer = .main) ∧
  (∀ a, (Instr.regRead a).issuer = .main) ∧ (∀ a v, (Instr.dgramWrite a v).issuer = .sre) ∧
  ∀ a, (Instr.dgramRead a).issuer = .sre

/-- R190, R30, R242 (and log entry 6): MAIN's turn while the ISR runs, or while it is blocked in a register operation
and offers no other (log entry 7), and the SRE's turn while the ISR runs or in SETTLE, change nothing but the
schedule. -/
def Obligations.HeldTurnsChangeNothing : Prop :=
  ∀ (s : State) (ts : List Turn),
    ((s.inputs.turns = .agent .main :: ts ∧ s.rxu.inIsr = true) ∨
      (s.inputs.turns = .agent .main :: ts ∧ s.sre.callerWaiting = true ∧
        ∀ r ∈ s.inputs.main.head?, ∀ a v, decode r ≠ .ok (.regWrite a v) ∧ decode r ≠ .ok (.regRead a)) ∨
      (s.inputs.turns = .agent .sre :: ts ∧ (s.rxu.inIsr = true ∨ s.sre.eng = .settle))) →
    step s = .next (setTurns ts s)

/-- R270, R271 (log entry 26): after reset, and after a node reset, MAIN has not stepped. Until it has, the SRE's turn
is a hold, and no other agent's step changes anything but the inputs: a frame that arrives is lost (R122) and no other
event is enabled. Only MAIN's turn ends that, and only a node reset brings it back. -/
def Obligations.FirstAgentToStepIsMain : Prop :=
  (∀ p : Params, (State.resetWith p).mainStepped = false) ∧
  (∀ (s : State) (ts : List Turn), s.inputs.turns = .nodeReset :: ts →
    ∃ t, step s = .next t ∧ t.mainStepped = false) ∧
  (∀ (s : State) (ts : List Turn), s.mainStepped = false → s.inputs.turns = .agent .sre :: ts →
    step s = .next (setTurns ts s)) ∧
  (∀ (s t : State) (a : Agent) (ts : List Turn), Inv s → s.mainStepped = false → s.inputs.turns = .agent a :: ts →
    a ≠ .main → step s = .next t → ∃ n : Inputs, t = { s with inputs := n }) ∧
  (∀ s t : State, step s = .next t → s.mainStepped = false → t.mainStepped = true →
    s.inputs.turns.head? = some (.agent .main)) ∧
  ∀ s t : State, step s = .next t → s.mainStepped = true → t.mainStepped = false →
    s.inputs.turns.head? = some .nodeReset

/-- R96, R128, R201: inside an operation an agent's turn is its next micro-step: MAIN's RX_POP, the SRE's XCHG_PUT or
XCHG_GET. -/
def Obligations.MicroStepsAreTheAgentsTurns : Prop :=
  ∀ (s : State) (ts : List Turn),
    (s.inputs.turns = .agent .main :: ts → holds .main s = false → s.rxu.rxBusy = true →
      step s = .next (rxPop (setTurns ts s))) ∧
    (s.inputs.turns = .agent .sre :: ts → holds .sre s = false → s.sre.eng = .put →
      step s = .next (xchgPut (setTurns ts s))) ∧
    (s.inputs.turns = .agent .sre :: ts → holds .sre s = false → s.sre.eng = .get →
      step s = .next (xchgGet (setTurns ts s)))

/-- The model's choice (log entry 5): with no turn scheduled, the step is an enabled micro-step of the block, and with
none enabled it changes nothing. -/
def Obligations.UnscheduledStep : Prop :=
  ∀ s : State, s.inputs.turns = [] →
    (holds .main s = false → s.rxu.rxBusy = true → step s = .next (rxPop s)) ∧
    (holds .sre s = false → s.rxu.rxBusy = false → s.sre.eng = .put → step s = .next (xchgPut s)) ∧
    (holds .sre s = false → s.rxu.rxBusy = false → s.sre.eng = .get → step s = .next (xchgGet s)) ∧
    (s.rxu.rxBusy = false → (s.sre.eng = .idle ∨ s.sre.eng = .settle) → step s = .next s)

/-! ### Reset -/

/-- R270, R45: what reset leaves in the elements the spec gives a value, for all parameters. -/
def Obligations.ResetLeavesSpecValues : Prop :=
  ∀ p : Params,
    let s := State.resetWith p
    s.rxu.linkUp = false ∧ s.rxu.loopback = false ∧ s.rxu.head = 0 ∧ s.rxu.tail = 0 ∧ s.rxu.hwq = [] ∧
    (∀ m ∈ s.txu.mailboxes, m.busy = false) ∧ s.sre.cs = false ∧ s.sre.txe = true ∧ s.sre.rxne = false ∧
    s.sre.eng = .idle ∧ s.rxu.inIsr = false ∧ s.rxu.rxBusy = false ∧ s.rxu.rxLeft = 0 ∧ s.rxu.rxOut = [] ∧
    s.sre.callerWaiting = false ∧ irqRx s = false ∧ ringEmpty s = true

/-- R271, R270: a node reset takes the block to the reset state from any state, mid-transaction and with frames in the
ring. The parameters, the inputs and the chip (which sees `cs` fall) are not the block's (log entry 15). -/
def Obligations.NodeResetFromAnyState : Prop :=
  ∀ (s : State) (ts : List Turn), s.inputs.turns = .nodeReset :: ts →
    ∃ t, step s = .next t ∧ t.cfg = s.cfg ∧ t.rxu = (State.resetWith s.cfg).rxu ∧
      t.txu = (State.resetWith s.cfg).txu ∧ t.sre = (State.resetWith s.cfg).sre ∧
      t.chip = (if s.sre.cs then s.chip.release else s.chip) ∧ t.mainStepped = false ∧
      t.inputs = { s.inputs with turns := ts }

/-! ### Reception -/

/-- R120: LINK_INIT. -/
def Obligations.LinkInitCompletes : Prop :=
  ∀ (lb : Bool) (s : State), s.rxu.linkUp = false →
    ∃ t, exec (.linkInit lb) s = .next t ∧
      t = { s with
        rxu := { s.rxu with loopback := lb, head := 0, tail := 0, linkUp := true }
        txu := { s.txu with mailboxes := s.txu.mailboxes.map fun m => { m with busy := false } } } ∧
      ringEmpty t = true ∧ (∀ m ∈ t.txu.mailboxes, m.busy = false) ∧
      (s.rxu.hwq = [] → irqRx t = false) ∧
      decode (opRecord 0x1 (a := if lb then 1 else 0)) = .ok (.linkInit lb)

/-- R121: a second LINK_INIT is refused; RECEIVE and SEND are refused while the link is down. -/
def Obligations.LinkRefusals : Prop :=
  ∀ s : State,
    (s.rxu.linkUp = true → ∀ lb, exec (.linkInit lb) s = .refused .linkReinit) ∧
    (s.rxu.linkUp = false → (∀ n, exec (.receive n) s = .refused .linkNotInitialised) ∧
      ∀ f, exec (.send f) s = .refused .linkNotInitialised)

/-- R122: FRAME_ARRIVAL, every identifier and length: lost, lost, or queued last. It is enabled at any time: BUS's turn
with it to offer runs it in every state. -/
def Obligations.FrameArrivalCompletes : Prop :=
  ∀ (f : Frame) (s : State),
    step (giveOffer .bus (encode (.frameArrival f)) s) = exec (.frameArrival f) s ∧
    (s.rxu.linkUp = false → exec (.frameArrival f) s = .next s) ∧
    (s.rxu.linkUp = true → s.rxu.hwq.length = s.cfg.hwRxDepth → exec (.frameArrival f) s = .next s) ∧
    (s.rxu.linkUp = true → s.rxu.hwq.length ≠ s.cfg.hwRxDepth →
      ∃ t, exec (.frameArrival f) s = .next t ∧ t = { s with rxu := { s.rxu with hwq := s.rxu.hwq ++ [f] } } ∧
        irqRx t = true) ∧
    decode (opRecord 0x9 (a := 0#4 ++ f.len) (b := 0#5 ++ f.id) (p := payloadToBits f.data)) =
      .ok (.frameArrival f)

/-- R125, R276: RX_ISR taken on the oldest staged frame: stored at `head`, or dropped when the ring is full,
and acknowledged in both cases; nothing else changes (R205, R246). -/
def Obligations.RxIsrCompletes : Prop :=
  ∀ (s : State) (f : Frame) (q : List Frame),
    s.rxu.linkUp = true → s.rxu.hwq = f :: q → s.rxu.inIsr = false →
    ((s.rxu.head + 1) % s.cfg.ringN = s.rxu.tail → exec .rxIsr s = .next { s with rxu := { s.rxu with hwq := q } }) ∧
    ((s.rxu.head + 1) % s.cfg.ringN ≠ s.rxu.tail → exec .rxIsr s = .next { s with
      rxu := { s.rxu with slots := s.rxu.slots.set s.rxu.head f, head := (s.rxu.head + 1) % s.cfg.ringN, hwq := q } }) ∧
    decode (opRecord 0x8) = .ok .rxIsr

/-- R29, R124, R248: `irq_rx` is the link being up with a frame staged; while the interrupt is not requested, or the
ISR runs already, RX_ISR has no step, for which the model answers the same state (log entry 6). -/
def Obligations.RxIsrOnlyWhenRequested : Prop :=
  ∀ s : State, (irqRx s = true ↔ s.rxu.linkUp = true ∧ 0 < s.rxu.hwq.length) ∧
    ((irqRx s = false ∨ s.rxu.inIsr = true) → exec .rxIsr s = .next s)

/-- R127: RECEIVE starts a drain, or is refused while the link is down. -/
def Obligations.ReceiveStarts : Prop :=
  ∀ (n : BitVec 16) (s : State),
    (s.rxu.linkUp = true →
      exec (.receive n) s = .next { s with rxu := { s.rxu with rxOut := [], rxLeft := n, rxBusy := true } }) ∧
    (s.rxu.linkUp = false → exec (.receive n) s = .refused .linkNotInitialised) ∧
    decode (opRecord 0x2 (b := n)) = .ok (.receive n)

/-- R128, R129: RX_POP, enabled while a drain is in progress, ends it with its count and frames (kept in `ret`, log
entry 10), or copies the slot at `tail`, then advances; not enabled, it has no step (log entry 6). -/
def Obligations.RxPopStep : Prop :=
  ∀ s : State,
    (s.rxu.rxBusy = false → rxPop s = s) ∧
    (s.rxu.rxBusy = true → (s.rxu.rxLeft = 0 ∨ s.rxu.tail = s.rxu.head) →
      rxPop s = { s with rxu := { s.rxu with rxBusy := false },
                         ret := some (.received s.rxu.rxOut.length s.rxu.rxOut) }) ∧
    (s.rxu.rxBusy = true → s.rxu.rxLeft ≠ 0 → s.rxu.tail ≠ s.rxu.head → ∀ h : s.rxu.tail < s.rxu.slots.length,
      rxPop s = { s with rxu := { s.rxu with
        rxOut := s.rxu.rxOut ++ [s.rxu.slots[s.rxu.tail]], tail := (s.rxu.tail + 1) % s.cfg.ringN,
        rxLeft := s.rxu.rxLeft - 1 } })

/-- R130 (3) and (5), R73: with no RX_ISR step in between, a RECEIVE returns, within `max_n + 1` RX_POP steps, the
`min(max_n, occ)` oldest frames of the ring, in order, and leaves the rest. -/
def Obligations.ReceiveReturnsOldestFrames : Prop :=
  ∀ (n : BitVec 16) (s : State), Inv s → MainReady s → s.rxu.linkUp = true →
    ∃ t, receiveRun n s = .next t ∧
      t.ret = some (.received (min n.toNat (occupancy s)) ((ringFrames s).take n.toNat)) ∧
      ringFrames t = (ringFrames s).drop n.toNat ∧ t.rxu.rxBusy = false ∧ t.rxu.head = s.rxu.head ∧
      t.rxu.hwq = s.rxu.hwq

/-- R73, R126, R131, R283 (90_conflicts.md C4): taking the interrupt for every staged frame leaves in the ring the
frames it held and then the staged ones in order, cut at `RING_N - 1` frames. -/
def Obligations.InterruptsFillTheRingInOrder : Prop :=
  ∀ s : State, Inv s → s.rxu.linkUp = true →
    ∃ t, turnsOf .isr s.rxu.hwq.length { s with inputs := { s.inputs with isr := [] } } = .next t ∧
      ringFrames t = (ringFrames s ++ s.rxu.hwq).take (s.cfg.ringN - 1) ∧ t.rxu.hwq = [] ∧ t.rxu.tail = s.rxu.tail

/-- R283, R73 (95_test_vectors.md S1): frames that arrive one by one into an empty ring, at most `RING_N - 1` of them
and each taken by the interrupt, are returned by RECEIVE in the exact order they arrived, every byte of them. -/
def Obligations.FifoDelivery : Prop :=
  ∀ (fs : List Frame) (n : BitVec 16) (s : State), Inv s → MainReady s → s.rxu.linkUp = true → s.rxu.hwq = [] →
    ringEmpty s = true → s.inputs.isr = [] → fs.length ≤ s.cfg.ringN - 1 → fs.length ≤ n.toNat →
    ∃ t, andThen (arriveIsrAll fs s) (receiveRun n) = .next t ∧ t.ret = some (.received fs.length fs) ∧
      ringEmpty t = true

/-- R73, R74, R132: every step moves frames only as `FrameFlow` says: none is duplicated, reordered or overwritten in
the ring, and none is lost but at a full ring, a LINK_INIT or a node reset. -/
def Obligations.StepMovesFramesInOrder : Prop :=
  ∀ s t : State, Inv s → step s = .next t → FrameFlow s t

/-- R44, R133: an operation changes `head` only if it is RX_ISR or LINK_INIT, a slot only if it is RX_ISR, and `tail`
only if it is LINK_INIT; the micro-step RX_POP changes neither `head` nor a slot, and the SRE's change none of the
three. -/
def Obligations.SingleWriter : Prop :=
  (∀ (i : Instr) (s t : State), exec i s = .next t →
    (t.rxu.head ≠ s.rxu.head → i = .rxIsr ∨ ∃ lb, i = .linkInit lb) ∧
    (t.rxu.slots ≠ s.rxu.slots → i = .rxIsr) ∧
    (t.rxu.tail ≠ s.rxu.tail → ∃ lb, i = .linkInit lb)) ∧
  (∀ s : State, (rxPop s).rxu.head = s.rxu.head ∧ (rxPop s).rxu.slots = s.rxu.slots ∧ (sreMicro s).rxu = s.rxu)

/-- R29, R243: a requested interrupt stays requested through every step but an ISR turn that takes it or a node
reset; there is no mask. -/
def Obligations.InterruptStaysRequested : Prop :=
  ∀ s t : State, step s = .next t → irqRx s = true → s.inputs.turns.head? ≠ some (.agent .isr) →
    s.inputs.turns.head? ≠ some .nodeReset → irqRx t = true

/-- R28, R47, R120: once the link is up, it stays up with the same loopback flag through every step but a node
reset. -/
def Obligations.LinkStaysConfigured : Prop :=
  ∀ s t : State, step s = .next t → s.rxu.linkUp = true → s.inputs.turns.head? ≠ some .nodeReset →
    t.rxu.linkUp = true ∧ t.rxu.loopback = s.rxu.loopback

/-! ### Transmission -/

/-- R160, R161, R162: SEND loads the lowest-index free mailbox and returns OK, or returns FAIL and changes nothing of
the block when every mailbox is busy; refused while the link is down, and with a length above 8. The returned bit is
kept in `ret` (log entry 10). -/
def Obligations.SendCompletes : Prop :=
  ∀ (f : Frame) (s : State),
    (s.rxu.linkUp = false → exec (.send f) s = .refused .linkNotInitialised) ∧
    (s.rxu.linkUp = true → 8 < f.len.toNat → exec (.send f) s = .refused .sendLength) ∧
    (s.rxu.linkUp = true → f.len.toNat ≤ 8 → (∀ m ∈ s.txu.mailboxes, m.busy = true) →
      exec (.send f) s = .next { s with ret := some (.sent false) }) ∧
    (s.rxu.linkUp = true → f.len.toNat ≤ 8 → ∀ i (hi : i < s.txu.mailboxes.length), s.txu.mailboxes[i].busy = false →
      (∀ j (hj : j < i), s.txu.mailboxes[j].busy = true) →
      exec (.send f) s = .next { s with
        txu := { s.txu with mailboxes := s.txu.mailboxes.set i { busy := true, frame := f } }
        ret := some (.sent true) }) ∧
    decode (opRecord 0x3 (a := 0#4 ++ f.len) (b := 0#5 ++ f.id) (p := payloadToBits f.data)) = .ok (.send f)

/-- R99: the operand range checks: SEND's length (R163), TX_DONE's mailbox; and every length of an arrival, every
`max_n`, every address and value is accepted. -/
def Obligations.OperandRangeChecks : Prop :=
  ∀ s : State,
    (∀ f : Frame, s.rxu.linkUp = true → 8 < f.len.toNat → exec (.send f) s = .refused .sendLength) ∧
    (∀ i : BitVec 8, s.cfg.nMailbox ≤ i.toNat → exec (.txDone i) s = .refused .noSuchMailbox) ∧
    (∀ f : Frame, ∃ t, exec (.frameArrival f) s = .next t) ∧
    (s.rxu.linkUp = true → ∀ n, ∃ t, exec (.receive n) s = .next t) ∧
    (s.sre.eng = .idle → ∀ a v, (∃ t, exec (.regWrite a v) s = .next t) ∧ ∃ t, exec (.regRead a) s = .next t)

/-- R164, and R165, R166 (1) and (4): TX_DONE of a busy mailbox frees it, its frame staying in it, and in loopback
delivers the frame by the arrival rule; of a free mailbox it has no step, for which the model answers the same state
(log entry 6), and of one that does not exist it is refused. -/
def Obligations.TxDoneCompletes : Prop :=
  ∀ (i : BitVec 8) (s : State),
    (s.cfg.nMailbox ≤ i.toNat → exec (.txDone i) s = .refused .noSuchMailbox) ∧
    (i.toNat < s.cfg.nMailbox → ∀ hi : i.toNat < s.txu.mailboxes.length,
      let m := s.txu.mailboxes[i.toNat]
      let freed := { s with txu := { s.txu with mailboxes := s.txu.mailboxes.set i.toNat { m with busy := false } } }
      (m.busy = false → exec (.txDone i) s = .next s) ∧
      (m.busy = true → s.rxu.loopback = false → exec (.txDone i) s = .next freed) ∧
      (m.busy = true → s.rxu.loopback = true → exec (.txDone i) s = exec (.frameArrival m.frame) freed) ∧
      ∃ t, exec (.txDone i) s = .next t) ∧
    decode (opRecord 0xA (a := i)) = .ok (.txDone i)

/-- R163 (3): two SENDs with no TX_DONE between them go to the two lowest free mailboxes, in index order. -/
def Obligations.TwoSendsTakeTheLowestTwo : Prop :=
  ∀ (f g : Frame) (s : State) (i j : Nat) (hi : i < j) (hj : j < s.txu.mailboxes.length),
    s.rxu.linkUp = true → f.len.toNat ≤ 8 → g.len.toNat ≤ 8 →
    (∀ l (hl : l < j), l ≠ i → s.txu.mailboxes[l].busy = true) →
    s.txu.mailboxes[i].busy = false → s.txu.mailboxes[j].busy = false →
    ∃ u t, exec (.send f) s = .next u ∧ u.ret = some (.sent true) ∧ exec (.send g) u = .next t ∧
      t.txu.mailboxes = (s.txu.mailboxes.set i { busy := true, frame := f }).set j { busy := true, frame := g } ∧
      t.ret = some (.sent true)

/-! ### The serial engine -/

/-- R195: REG_WRITE's start; the chip sees `cs` rise. -/
def Obligations.RegWriteStarts : Prop :=
  ∀ (a : BitVec 8) (v : Word) (s : State), s.sre.eng = .idle → s.sre.cs = false →
    exec (.regWrite a v) s = .next { s with
      sre := { s.sre with
        callerWaiting := true, phase := .wr, addr := bitField a 0 7
        tx := #v[(bitField a 0 7).setWidth 8 ||| 0x80, bitField v 24 8, bitField v 16 8, bitField v 8 8, bitField v 0 8]
        k := 0, cs := true, eng := .put }
      chip := { s.chip with count := 0, outWord := s.chip.dataWord } } ∧
    decode (opRecord 0x4 (a := a) (c := v)) = .ok (.regWrite a v)

/-- R197: REG_READ's start of phase 1; the chip sees `cs` rise. -/
def Obligations.RegReadStarts : Prop :=
  ∀ (a : BitVec 8) (s : State), s.sre.eng = .idle → s.sre.cs = false →
    exec (.regRead a) s = .next { s with
      sre := { s.sre with
        callerWaiting := true, phase := .rd1, addr := bitField a 0 7
        tx := #v[(bitField a 0 7).setWidth 8, 0, 0, 0, 0]
        k := 0, cs := true, eng := .put }
      chip := { s.chip with count := 0, outWord := s.chip.dataWord } } ∧
    decode (opRecord 0x5 (a := a)) = .ok (.regRead a)

/-- R202 (95_test_vectors.md SR11): a register operation offered while the engine is not IDLE is refused, by exec and
by the step in which MAIN offers it, blocked (log entry 7) or not; exec refuses a lone datagram too (log entry 11). -/
def Obligations.BusyEngineRefuses : Prop :=
  ∀ s : State, s.sre.eng ≠ .idle →
    (s.rxu.inIsr = false → s.rxu.rxBusy = false → ∀ a v,
      step (giveOffer .main (encode (.regWrite a v)) s) = .refused .serialBusy ∧
      step (giveOffer .main (encode (.regRead a)) s) = .refused .serialBusy) ∧
    (∀ a v, exec (.regWrite a v) s = .refused .serialBusy) ∧ (∀ a, exec (.regRead a) s = .refused .serialBusy) ∧
    (∀ a v, exec (.dgramWrite a v) s = .refused .serialBusy) ∧ ∀ a, exec (.dgramRead a) s = .refused .serialBusy

/-- R191, R193: XCHG_PUT hands a byte over; XCHG_GET takes a reply, for every byte but the last; each holds while its
readiness flag is not set, for which the model answers the same state (log entry 6). -/
def Obligations.ByteExchangeMicroSteps : Prop :=
  ∀ s : State,
    (s.sre.eng = .put → s.sre.txe = true →
      xchgPut s = { s with sre := { s.sre with txdr := s.sre.tx[s.sre.k], txe := false, eng := .get } }) ∧
    (s.sre.eng = .put → s.sre.txe = false → xchgPut s = s) ∧
    (∀ hk : s.sre.k.val < 4, s.sre.eng = .get → s.sre.rxne = true →
      xchgGet s = { s with sre := { s.sre with
        rx := s.sre.rx.set s.sre.k s.sre.rxdr, rxne := false, k := ⟨s.sre.k.val + 1, by omega⟩, eng := .put } }) ∧
    (s.sre.eng = .get → s.sre.rxne = false → xchgGet s = s)

/-- R192: SPI_SHIFT; the chip receives `txdr`. Not enabled, it has no step, for which the model answers the same state
(log entry 6). -/
def Obligations.SpiShiftCompletes : Prop :=
  ∀ (r : Byte) (s : State),
    (s.sre.cs = true → s.sre.txe = false → s.sre.rxne = false →
      exec (.spiShift r) s = .next { s with
        sre := { s.sre with rxdr := r, rxne := true, txe := true }, chip := s.chip.shift s.sre.txdr }) ∧
    ((s.sre.cs = false ∨ s.sre.txe = true ∨ s.sre.rxne = true) → exec (.spiShift r) s = .next s) ∧
    decode (opRecord 0xB (a := r)) = .ok (.spiShift r)

/-- R194, R196, R198, R200: the XCHG_GET of the last byte ends the transaction: `cs` is released (the chip sees it),
and by phase MAIN resumes with no value, the settling delay starts, or MAIN resumes with the result. What it
resumes with is kept in `ret` (log entry 10). -/
def Obligations.TransactionEnds : Prop :=
  ∀ s : State, s.sre.eng = .get → s.sre.rxne = true → s.sre.k = 4 → s.sre.cs = true →
    let rx := s.sre.rx.set 4 s.sre.rxdr
    (s.sre.phase = .wr → xchgGet s = { s with
      sre := { s.sre with rx := rx, rxne := false, cs := false, eng := .idle, callerWaiting := false }
      chip := s.chip.release, ret := some .written }) ∧
    (s.sre.phase = .rd1 → xchgGet s = { s with
      sre := { s.sre with rx := rx, rxne := false, cs := false, eng := .settle }
      chip := s.chip.release }) ∧
    (s.sre.phase = .rd2 → xchgGet s = { s with
      sre := { s.sre with
        rx := rx, rxne := false, cs := false, eng := .idle, callerWaiting := false
        result := rx[1] ++ rx[2] ++ rx[3] ++ rx[4] }
      chip := s.chip.release, ret := some (.readValue (rx[1] ++ rx[2] ++ rx[3] ++ rx[4])) })

/-- R199: SETTLE_ELAPSED starts phase 2 with the same datagram; not in SETTLE, it has no step, for which the model
answers the same state (log entry 6). -/
def Obligations.SettleElapsedCompletes : Prop :=
  ∀ s : State,
    (s.sre.eng = .settle → s.sre.cs = false →
      exec .settleElapsed s = .next { s with
        sre := { s.sre with
          phase := .rd2, tx := #v[s.sre.addr.setWidth 8, 0, 0, 0, 0], k := 0, cs := true, eng := .put }
        chip := { s.chip with count := 0, outWord := s.chip.dataWord } }) ∧
    (s.sre.eng ≠ .settle → exec .settleElapsed s = .next s) ∧
    decode (opRecord 0xC) = .ok .settleElapsed

/-- R65, R207 (1): bit 7 of an address operand has no effect. -/
def Obligations.AddressBit7Ignored : Prop :=
  ∀ (a : BitVec 8) (v : Word) (s : State),
    exec (.regWrite (a ||| 0x80) v) s = exec (.regWrite (a &&& 0x7F) v) s ∧
    exec (.regRead (a ||| 0x80)) s = exec (.regRead (a &&& 0x7F)) s

/-- R201, R196: a REG_WRITE with any replies runs to its end in 16 steps; the chip has received exactly the write
datagram, and nothing of RXU and TXU has changed. -/
def Obligations.RegWriteRunsToItsEnd : Prop :=
  ∀ (reply : Nat → State → Byte) (a : BitVec 8) (v : Word) (s : State), Inv s → MainReady s →
    ∃ t, regWriteRun reply a v s = .next t ∧ t.sre.eng = .idle ∧ t.sre.cs = false ∧ t.sre.callerWaiting = false ∧
      t.ret = some .written ∧ t.chip = s.chip.datagram (writeDatagram (addrOperand a) v) ∧
      t.chip.regs = s.chip.regs.set (bitField a 0 7).toNat v (bitField a 0 7).isLt ∧
      t.chip.dataWord = s.chip.dataWord ∧ t.rxu = s.rxu ∧ t.txu = s.txu

/-- R200, R198, R203, R212 (95_test_vectors.md SR10): a REG_READ returns bytes 1 to 4 of the phase-2 replies, most
significant first, whatever they are; the phase-1 replies and the status bytes are not used. -/
def Obligations.RegReadReturnsPhaseTwo : Prop :=
  ∀ (r q : DatagramBytes) (a : BitVec 8) (s : State), Inv s → MainReady s →
    ∃ t, regReadRun (givenReplies r) (givenReplies q) a s = .next t ∧
      t.ret = some (.readValue (q[1] ++ q[2] ++ q[3] ++ q[4])) ∧ t.sre.result = q[1] ++ q[2] ++ q[3] ++ q[4] ∧
      t.sre.eng = .idle ∧ t.sre.cs = false ∧ t.sre.callerWaiting = false ∧ t.rxu = s.rxu ∧ t.txu = s.txu

/-- R216: under the reference chip (a premise: every reply byte is the chip's), REG_WRITE `a, v` followed by REG_READ
`a` returns `v`, for every address, value and status byte. -/
def Obligations.WriteThenReadReturnsTheValue : Prop :=
  ∀ (st1 st2 st3 : Byte) (a : BitVec 8) (v : Word) (s : State), Inv s → MainReady s →
    ∃ t, andThen (regWriteRun (chipReplies st1) a v s) (regReadRun (chipReplies st2) (chipReplies st3) a) = .next t ∧
      t.ret = some (.readValue v) ∧ t.sre.result = v

/-- R217, R211, R214 (95_test_vectors.md SR7): under the reference chip, the replies to bytes 1 to 4 of one read
datagram are the bytes of the register of the read datagram before it, most significant first, the reply to byte 0 is
the status byte, and the register now addressed is latched for the next. -/
def Obligations.SingleReadIsStale : Prop :=
  ∀ (a b : ChipAddr) (st : Byte) (c : Chip),
    (let old := c.regs[a.toNat]'a.isLt
     let q := readDatagram b
     let d := (c.datagram (readDatagram a)).select
     d.reply st = st ∧ (d.shift q[0]).reply st = bitField old 24 8 ∧
     ((d.shift q[0]).shift q[1]).reply st = bitField old 16 8 ∧
     (((d.shift q[0]).shift q[1]).shift q[2]).reply st = bitField old 8 8 ∧
     ((((d.shift q[0]).shift q[1]).shift q[2]).shift q[3]).reply st = bitField old 0 8) ∧
    ((c.datagram (readDatagram a)).datagram (readDatagram b)).outWord = c.regs[a.toNat]'a.isLt ∧
    ((c.datagram (readDatagram a)).datagram (readDatagram b)).dataWord = c.regs[b.toNat]'b.isLt ∧
    (c.datagram (readDatagram b)).outWord = c.dataWord

/-- R205, R78: no operation, event or micro-step of the link changes anything of the SRE or the chip, and RX_ISR
nothing of the mailboxes or a returned value; and no register operation, serial event, lone datagram or SRE micro-step
changes anything of RXU or TXU. -/
def Obligations.UnitsAreIndependent : Prop :=
  (∀ (i : Instr) (s t : State), i.issuer = .isr ∨ i.issuer = .bus ∨ (∃ lb, i = .linkInit lb) ∨
      (∃ n, i = .receive n) ∨ (∃ f, i = .send f) → exec i s = .next t → t.sre = s.sre ∧ t.chip = s.chip) ∧
  (∀ s : State, (rxPop s).sre = s.sre ∧ (rxPop s).chip = s.chip) ∧
  (∀ s t : State, exec .rxIsr s = .next t → t.sre = s.sre ∧ t.chip = s.chip ∧ t.txu = s.txu ∧ t.ret = s.ret) ∧
  (∀ (i : Instr) (s t : State), i.issuer = .serialEnv ∨ i.issuer = .sre ∨ (∃ a v, i = .regWrite a v) ∨
      (∃ a, i = .regRead a) → exec i s = .next t → t.rxu = s.rxu ∧ t.txu = s.txu) ∧
  (∀ s : State, (sreMicro s).rxu = s.rxu ∧ (sreMicro s).txu = s.txu)

/-- R204, R190: with no SPI_SHIFT (no turn of SERIAL_ENV) and no node reset the engine that waits for a reply holds
for ever and MAIN stays blocked, whatever the other agents do. -/
def Obligations.StuckLinkHangs : Prop :=
  ∀ (n : Nat) (s t : State), Inv s → s.sre.eng = .get → s.sre.rxne = false →
    (∀ u ∈ s.inputs.turns, u ≠ .agent .serialEnv ∧ u ≠ .nodeReset) → runFor n s = .next t →
    t.sre.eng = .get ∧ t.sre.rxne = false ∧ t.sre.callerWaiting = true

/-- The datagrams as instructions (the model's choice, log entry 11): from an IDLE engine a lone DGRAM_WRITE writes
the register and a lone DGRAM_READ latches it for the next datagram (R215); the SRE is left IDLE with `cs` released,
and the receive and transmit units are unchanged. The reply bytes are free. -/
def Obligations.LoneDatagramsComplete : Prop :=
  ∀ (a : ChipAddr) (v : Word) (s : State), s.sre.eng = .idle →
    (∃ t, exec (.dgramWrite a v) s = .next t ∧ t.chip.regs = s.chip.regs.set a.toNat v a.isLt ∧
      t.chip.dataWord = s.chip.dataWord ∧ t.chip.outWord = s.chip.dataWord ∧ t.sre.eng = .idle ∧
      t.sre.cs = false ∧ t.sre.callerWaiting = s.sre.callerWaiting ∧ t.sre.result = s.sre.result ∧
      t.sre.phase = s.sre.phase ∧ t.sre.addr = s.sre.addr ∧
      t.sre.tx = datagramBytes (1#1 ++ a ++ v) ∧ t.cfg = s.cfg ∧ t.rxu = s.rxu ∧ t.txu = s.txu ∧ t.ret = s.ret ∧
      t.mainStepped = s.mainStepped ∧ t.inputs = s.inputs) ∧
    (∃ t, exec (.dgramRead a) s = .next t ∧ t.chip.regs = s.chip.regs ∧
      t.chip.dataWord = s.chip.regs[a.toNat]'a.isLt ∧ t.chip.outWord = s.chip.dataWord ∧ t.sre.eng = .idle ∧
      t.sre.cs = false ∧ t.sre.callerWaiting = s.sre.callerWaiting ∧ t.sre.result = s.sre.result ∧
      t.sre.phase = s.sre.phase ∧ t.sre.addr = s.sre.addr ∧
      t.sre.tx = datagramBytes (0#1 ++ a ++ 0#32) ∧ t.cfg = s.cfg ∧ t.rxu = s.rxu ∧ t.txu = s.txu ∧ t.ret = s.ret ∧
      t.mainStepped = s.mainStepped ∧ t.inputs = s.inputs)

/-! ### The whole machine -/

/-- Every step keeps the machine's invariant. -/
def Obligations.StepKeepsInv : Prop := ∀ s t : State, Inv s → step s = .next t → Inv t

/-- The invariant holds after reset, for every legal choice of the parameters. -/
def Obligations.ResetHasInv : Prop := ∀ p : Params, p.Legal → Inv (State.resetWith p)

/-- R194, R213, R214: every step keeps the reference chip in step with the transaction in flight, in states with the
invariant. -/
def Obligations.StepKeepsChipInStep : Prop :=
  ∀ s t : State, Inv s → ChipInStep s → step s = .next t → ChipInStep t

/-- R194, R90, R215: when a transaction ends, the chip has received exactly the five bytes of its datagram: a write
datagram writes its register and a read datagram latches its register. -/
def Obligations.TransactionDeliversItsDatagram : Prop :=
  ∀ (s : State) (a : ChipAddr) (v : Word), Inv s → ChipInStep s → s.sre.eng = .get → s.sre.rxne = true →
    s.sre.k = 4 →
    (s.sre.tx = writeDatagram a v → (xchgGet s).chip = s.chip.writeReg a v) ∧
    (s.sre.tx = readDatagram a → (xchgGet s).chip = s.chip.latchReg a)

/-- R94: the SRE sends only the patterns of R91 and R92: every step keeps that the datagram of a transaction in flight
is the one of its phase and address. -/
def Obligations.SreSendsOnlyTheTwoPatterns : Prop :=
  ∀ s t : State, Inv s →
    (s.sre.eng = .put ∨ s.sre.eng = .get →
      if s.sre.phase = .wr then ∃ v, s.sre.tx = writeDatagram s.sre.addr v else s.sre.tx = readDatagram s.sre.addr) →
    step s = .next t →
    (t.sre.eng = .put ∨ t.sre.eng = .get →
      if t.sre.phase = .wr then ∃ v, t.sre.tx = writeDatagram t.sre.addr v else t.sre.tx = readDatagram t.sre.addr)

/-- R206, R275: the settling delay of a read ends only with SERIAL_ENV's turn, in phase 2 with `cs` asserted (or with
a node reset): no step skips the second transaction. -/
def Obligations.PhaseTwoOnlyAfterSettling : Prop :=
  ∀ s t : State, Inv s → s.sre.eng = .settle → step s = .next t → s.inputs.turns.head? ≠ some .nodeReset →
    (t.sre.eng = .settle ∧ t.sre.callerWaiting = true) ∨
    (s.inputs.turns.head? = some (.agent .serialEnv) ∧ t.sre.eng = .put ∧ t.sre.phase = .rd2 ∧ t.sre.cs = true ∧
      t.sre.k = 0)

/-- D32: a run that has ended, with no turn scheduled, stays as it is. -/
def Obligations.EndedRunStays : Prop :=
  ∀ s : State, Inv s → runEnded s = true → s.inputs.turns = [] → step s = .next s

/-- R5: no step changes the parameters. -/
def Obligations.ParametersNeverChange : Prop := ∀ s t : State, step s = .next t → t.cfg = s.cfg

/-- R242, for exec: an operation is refused exactly in the five cases of `RefusalCase`, each under its own name. -/
def Obligations.RefusedOnlyInTheListedCases : Prop :=
  ∀ (i : Instr) (s : State) (r : Refusal), exec i s = .refused r ↔ RefusalCase i s r

/-- R242, for the step: it answers a next state, or one of the seven refusals, and then for the record that the agent
whose turn it is offers: a reserved encoding, another agent's record, or an operation in a case of `RefusalCase`. -/
def Obligations.StepAnswersNextOrAListedRefusal : Prop :=
  ∀ s : State, (∃ t, step s = .next t) ∨
    ∃ (r : Refusal) (a : Agent) (ts : List Turn) (o : Raw) (os : List Raw), step s = .refused r ∧
      s.inputs.turns = .agent a :: ts ∧ s.inputs.pending a = o :: os ∧
      ((r = .reservedEncoding ∧ decode o = .error .reservedEncoding) ∨
        ∃ i, decode o = .ok i ∧ ((r = .wrongIssuer ∧ i.issuer ≠ a) ∨ (i.issuer = a ∧ RefusalCase i s r)))

/-- R23, R24, R131: in states with the invariant each index fits its word of `IDX_W` bits, the ring holds at most
`RING_N - 1` frames, and full and empty are the two ends of the occupancy. -/
def Obligations.IndicesAndOccupancyInRange : Prop :=
  ∀ s : State, Inv s →
    s.rxu.head < 2 ^ s.cfg.idxW ∧ s.rxu.tail < 2 ^ s.cfg.idxW ∧ occupancy s ≤ s.cfg.ringUsable ∧
    (ringEmpty s = true ↔ occupancy s = 0) ∧ (ringFull s = true ↔ occupancy s = s.cfg.ringN - 1)
end

