-- ==== Sys2Proof/Laws/Decode.lean ====
section
/-! SUPPORT. The bit-level facts of the two encodings: a record's fields are its bits and a payload's bytes are its
bits, both ways. -/

namespace Sys2Proof

theorem OpRecord.ofBits_toBits (r : OpRecord) : OpRecord.ofBits r.toBits = r := by
  cases r
  simp only [OpRecord.ofBits, OpRecord.toBits, bitField, OpRecord.mk.injEq]
  refine ⟨?_, ?_, ?_, ?_, ?_, ?_⟩ <;>
  · apply BitVec.eq_of_getLsbD_eq
    intro i hi
    simp only [BitVec.getLsbD_extractLsb', BitVec.getLsbD_append]
    grind

theorem OpRecord.toBits_ofBits (o : RecordBits) : (OpRecord.ofBits o).toBits = o := by
  simp only [OpRecord.ofBits, OpRecord.toBits, bitField]
  apply BitVec.eq_of_getLsbD_eq
  intro i hi
  simp only [BitVec.getLsbD_extractLsb', BitVec.getLsbD_append]
  grind

theorem OpRecord.toBits_inj {r q : OpRecord} (h : r.toBits = q.toBits) : r = q := by
  rw [← OpRecord.ofBits_toBits r, h, OpRecord.ofBits_toBits]

/-- Masking a record masks each field. -/
theorem OpRecord.toBits_and (r q : OpRecord) : r.toBits &&& q.toBits =
    OpRecord.toBits { op := r.op &&& q.op, reserved := r.reserved &&& q.reserved, a := r.a &&& q.a, b := r.b &&& q.b,
                      c := r.c &&& q.c, p := r.p &&& q.p } := by
  simp only [OpRecord.toBits]
  apply BitVec.eq_of_getLsbD_eq
  intro i hi
  simp only [BitVec.getLsbD_and, BitVec.getLsbD_append]
  grind

theorem payloadToBits_ofBits (p : BitVec 64) : payloadToBits (payloadOfBits p) = p := by
  simp only [payloadToBits, payloadOfBits, bitField, Vector.getElem_ofFn]
  apply BitVec.eq_of_getLsbD_eq
  intro i hi
  simp only [BitVec.getLsbD_extractLsb', BitVec.getLsbD_append]
  grind

theorem payloadOfBits_toBits (d : Vector Byte 8) : payloadOfBits (payloadToBits d) = d := by
  ext j hj : 1
  apply BitVec.eq_of_getLsbD_eq
  intro i hi
  simp only [payloadToBits, payloadOfBits, bitField, Vector.getElem_ofFn, BitVec.getLsbD_extractLsb',
    BitVec.getLsbD_append]
  have cases_j : j = 0 ∨ j = 1 ∨ j = 2 ∨ j = 3 ∨ j = 4 ∨ j = 5 ∨ j = 6 ∨ j = 7 := by omega
  rcases cases_j with rfl | rfl | rfl | rfl | rfl | rfl | rfl | rfl <;> grind

theorem datagramOfBytes_bytes (g : DatagramBits) : datagramOfBytes (datagramBytes g) = g := by
  simp only [datagramOfBytes, datagramBytes, bitField, Vector.getElem_mk, List.getElem_toArray, List.getElem_cons_zero,
    List.getElem_cons_succ]
  apply BitVec.eq_of_getLsbD_eq
  intro i hi
  simp only [BitVec.getLsbD_extractLsb', BitVec.getLsbD_append]
  grind

/-- The frame of a record whose `A`, `B` and `P` are a frame's is that frame (R100). -/
theorem OpRecord.frame_of_fields (f : Frame) (op r : BitVec 4) (c : BitVec 32) :
    OpRecord.frame ⟨op, r, 0#4 ++ f.len, 0#5 ++ f.id, c, payloadToBits f.data⟩ = f := by
  cases f
  simp only [OpRecord.frame, payloadOfBits_toBits, Frame.mk.injEq, and_true, bitField]
  constructor <;>
  · apply BitVec.eq_of_getLsbD_eq
    intro i hi
    simp only [BitVec.getLsbD_extractLsb', BitVec.getLsbD_append]
    grind

theorem OpRecord.frameSpare_of_fields (f : Frame) (op r : BitVec 4) (c : BitVec 32) (p : BitVec 64) :
    OpRecord.frameSpare ⟨op, r, 0#4 ++ f.len, 0#5 ++ f.id, c, p⟩ = true := by
  simp only [OpRecord.frameSpare, bitField, Bool.and_eq_true, beq_iff_eq]
  constructor <;>
  · apply BitVec.eq_of_getLsbD_eq
    intro i hi
    simp only [BitVec.getLsbD_extractLsb', BitVec.getLsbD_append]
    simp
    try omega

/-- A record with zeros outside its frame operand is made of that frame's fields (R96, R100). -/
theorem OpRecord.fields_of_frame (r : OpRecord) (h : r.frameSpare = true) :
    0#4 ++ r.frame.len = r.a ∧ 0#5 ++ r.frame.id = r.b ∧ payloadToBits r.frame.data = r.p := by
  cases r
  simp only [OpRecord.frameSpare, bitField, Bool.and_eq_true, beq_iff_eq, OpRecord.frame, payloadToBits_ofBits,
    and_true] at *
  obtain ⟨h1, h2⟩ := h
  have g1 := fun i => congrArg (fun x => BitVec.getLsbD x i) h1
  have g2 := fun i => congrArg (fun x => BitVec.getLsbD x i) h2
  simp only [BitVec.getLsbD_extractLsb'] at g1 g2
  constructor
  · apply BitVec.eq_of_getLsbD_eq
    intro i hi
    have := g1 (i - 4)
    simp only [BitVec.getLsbD_extractLsb', BitVec.getLsbD_append] at *
    grind
  · apply BitVec.eq_of_getLsbD_eq
    intro i hi
    have := g2 (i - 11)
    simp only [BitVec.getLsbD_extractLsb', BitVec.getLsbD_append] at *
    grind

end Sys2Proof
end

