-- ==== Sys2Proof/Laws/State.lean ====
section
/-! SUPPORT. One lemma per field per update: what each named update of State leaves in each field. -/

namespace Sys2Proof.Machine

variable (s : State)

/-! ### enterIsr -/

@[simp] theorem enterIsr_cfg : (enterIsr s).cfg = s.cfg := rfl
@[simp] theorem enterIsr_rxu : (enterIsr s).rxu = { s.rxu with inIsr := true } := rfl
@[simp] theorem enterIsr_txu : (enterIsr s).txu = s.txu := rfl
@[simp] theorem enterIsr_sre : (enterIsr s).sre = s.sre := rfl
@[simp] theorem enterIsr_chip : (enterIsr s).chip = s.chip := rfl
@[simp] theorem enterIsr_mainStepped : (enterIsr s).mainStepped = s.mainStepped := rfl
@[simp] theorem enterIsr_ret : (enterIsr s).ret = s.ret := rfl
@[simp] theorem enterIsr_draws : (enterIsr s).draws = s.draws := rfl
@[simp] theorem enterIsr_inputs : (enterIsr s).inputs = s.inputs := rfl

/-! ### leaveIsr -/

@[simp] theorem leaveIsr_cfg : (leaveIsr s).cfg = s.cfg := rfl
@[simp] theorem leaveIsr_rxu : (leaveIsr s).rxu = { s.rxu with inIsr := false } := rfl
@[simp] theorem leaveIsr_txu : (leaveIsr s).txu = s.txu := rfl
@[simp] theorem leaveIsr_sre : (leaveIsr s).sre = s.sre := rfl
@[simp] theorem leaveIsr_chip : (leaveIsr s).chip = s.chip := rfl
@[simp] theorem leaveIsr_mainStepped : (leaveIsr s).mainStepped = s.mainStepped := rfl
@[simp] theorem leaveIsr_ret : (leaveIsr s).ret = s.ret := rfl
@[simp] theorem leaveIsr_draws : (leaveIsr s).draws = s.draws := rfl
@[simp] theorem leaveIsr_inputs : (leaveIsr s).inputs = s.inputs := rfl

/-! ### acknowledge -/

@[simp] theorem acknowledge_cfg : (acknowledge s).cfg = s.cfg := rfl
@[simp] theorem acknowledge_rxu : (acknowledge s).rxu = { s.rxu with hwq := s.rxu.hwq.tail } := rfl
@[simp] theorem acknowledge_txu : (acknowledge s).txu = s.txu := rfl
@[simp] theorem acknowledge_sre : (acknowledge s).sre = s.sre := rfl
@[simp] theorem acknowledge_chip : (acknowledge s).chip = s.chip := rfl
@[simp] theorem acknowledge_mainStepped : (acknowledge s).mainStepped = s.mainStepped := rfl
@[simp] theorem acknowledge_ret : (acknowledge s).ret = s.ret := rfl
@[simp] theorem acknowledge_draws : (acknowledge s).draws = s.draws := rfl
@[simp] theorem acknowledge_inputs : (acknowledge s).inputs = s.inputs := rfl

/-! ### storeFrame -/

@[simp] theorem storeFrame_cfg (f : Frame) : (storeFrame f s).cfg = s.cfg := rfl
@[simp] theorem storeFrame_rxu (f : Frame) :
    (storeFrame f s).rxu = { s.rxu with slots := s.rxu.slots.set s.rxu.head f, head := nextIndex s s.rxu.head } :=
  rfl
@[simp] theorem storeFrame_txu (f : Frame) : (storeFrame f s).txu = s.txu := rfl
@[simp] theorem storeFrame_sre (f : Frame) : (storeFrame f s).sre = s.sre := rfl
@[simp] theorem storeFrame_chip (f : Frame) : (storeFrame f s).chip = s.chip := rfl
@[simp] theorem storeFrame_mainStepped (f : Frame) : (storeFrame f s).mainStepped = s.mainStepped := rfl
@[simp] theorem storeFrame_ret (f : Frame) : (storeFrame f s).ret = s.ret := rfl
@[simp] theorem storeFrame_draws (f : Frame) : (storeFrame f s).draws = s.draws := rfl
@[simp] theorem storeFrame_inputs (f : Frame) : (storeFrame f s).inputs = s.inputs := rfl

/-! ### endReceive -/

@[simp] theorem endReceive_cfg : (endReceive s).cfg = s.cfg := rfl
@[simp] theorem endReceive_rxu : (endReceive s).rxu = { s.rxu with rxBusy := false } := rfl
@[simp] theorem endReceive_txu : (endReceive s).txu = s.txu := rfl
@[simp] theorem endReceive_sre : (endReceive s).sre = s.sre := rfl
@[simp] theorem endReceive_chip : (endReceive s).chip = s.chip := rfl
@[simp] theorem endReceive_mainStepped : (endReceive s).mainStepped = s.mainStepped := rfl
@[simp] theorem endReceive_ret : (endReceive s).ret = some (.received s.rxu.rxOut.length s.rxu.rxOut) := rfl
@[simp] theorem endReceive_draws : (endReceive s).draws = s.draws := rfl
@[simp] theorem endReceive_inputs : (endReceive s).inputs = s.inputs := rfl

/-! ### takeFrame -/

@[simp] theorem takeFrame_cfg : (takeFrame s).cfg = s.cfg := rfl
@[simp] theorem takeFrame_rxu :
    (takeFrame s).rxu = { s.rxu with rxOut := s.rxu.rxOut ++ [slotAt s s.rxu.tail], tail := nextIndex s s.rxu.tail, rxLeft := s.rxu.rxLeft - 1 } :=
  rfl
@[simp] theorem takeFrame_txu : (takeFrame s).txu = s.txu := rfl
@[simp] theorem takeFrame_sre : (takeFrame s).sre = s.sre := rfl
@[simp] theorem takeFrame_chip : (takeFrame s).chip = s.chip := rfl
@[simp] theorem takeFrame_mainStepped : (takeFrame s).mainStepped = s.mainStepped := rfl
@[simp] theorem takeFrame_ret : (takeFrame s).ret = s.ret := rfl
@[simp] theorem takeFrame_draws : (takeFrame s).draws = s.draws := rfl
@[simp] theorem takeFrame_inputs : (takeFrame s).inputs = s.inputs := rfl

/-! ### loadMailbox -/

@[simp] theorem loadMailbox_cfg (i : Nat) (f : Frame) : (loadMailbox i f s).cfg = s.cfg := rfl
@[simp] theorem loadMailbox_rxu (i : Nat) (f : Frame) : (loadMailbox i f s).rxu = s.rxu := rfl
@[simp] theorem loadMailbox_txu (i : Nat) (f : Frame) :
    (loadMailbox i f s).txu = { s.txu with mailboxes := s.txu.mailboxes.set i { busy := true, frame := f } } :=
  rfl
@[simp] theorem loadMailbox_sre (i : Nat) (f : Frame) : (loadMailbox i f s).sre = s.sre := rfl
@[simp] theorem loadMailbox_chip (i : Nat) (f : Frame) : (loadMailbox i f s).chip = s.chip := rfl
@[simp] theorem loadMailbox_mainStepped (i : Nat) (f : Frame) : (loadMailbox i f s).mainStepped = s.mainStepped := rfl
@[simp] theorem loadMailbox_ret (i : Nat) (f : Frame) : (loadMailbox i f s).ret = s.ret := rfl
@[simp] theorem loadMailbox_draws (i : Nat) (f : Frame) : (loadMailbox i f s).draws = s.draws := rfl
@[simp] theorem loadMailbox_inputs (i : Nat) (f : Frame) : (loadMailbox i f s).inputs = s.inputs := rfl

/-! ### freeMailboxAt -/

@[simp] theorem freeMailboxAt_cfg (i : Nat) : (freeMailboxAt i s).cfg = s.cfg := rfl
@[simp] theorem freeMailboxAt_rxu (i : Nat) : (freeMailboxAt i s).rxu = s.rxu := rfl
@[simp] theorem freeMailboxAt_txu (i : Nat) :
    (freeMailboxAt i s).txu = { s.txu with mailboxes := s.txu.mailboxes.modify i fun m => { m with busy := false } } :=
  rfl
@[simp] theorem freeMailboxAt_sre (i : Nat) : (freeMailboxAt i s).sre = s.sre := rfl
@[simp] theorem freeMailboxAt_chip (i : Nat) : (freeMailboxAt i s).chip = s.chip := rfl
@[simp] theorem freeMailboxAt_mainStepped (i : Nat) : (freeMailboxAt i s).mainStepped = s.mainStepped := rfl
@[simp] theorem freeMailboxAt_ret (i : Nat) : (freeMailboxAt i s).ret = s.ret := rfl
@[simp] theorem freeMailboxAt_draws (i : Nat) : (freeMailboxAt i s).draws = s.draws := rfl
@[simp] theorem freeMailboxAt_inputs (i : Nat) : (freeMailboxAt i s).inputs = s.inputs := rfl

/-! ### setCs -/

@[simp] theorem setCs_cfg (b : Bool) : (setCs b s).cfg = s.cfg := rfl
@[simp] theorem setCs_rxu (b : Bool) : (setCs b s).rxu = s.rxu := rfl
@[simp] theorem setCs_txu (b : Bool) : (setCs b s).txu = s.txu := rfl
@[simp] theorem setCs_sre (b : Bool) : (setCs b s).sre = { s.sre with cs := b } := rfl
@[simp] theorem setCs_chip (b : Bool) : (setCs b s).chip = s.chip.csEdge s.sre.cs b := rfl
@[simp] theorem setCs_mainStepped (b : Bool) : (setCs b s).mainStepped = s.mainStepped := rfl
@[simp] theorem setCs_ret (b : Bool) : (setCs b s).ret = s.ret := rfl
@[simp] theorem setCs_draws (b : Bool) : (setCs b s).draws = s.draws := rfl
@[simp] theorem setCs_inputs (b : Bool) : (setCs b s).inputs = s.inputs := rfl

/-! ### latchCaller -/

@[simp] theorem latchCaller_cfg (a : ChipAddr) : (latchCaller a s).cfg = s.cfg := rfl
@[simp] theorem latchCaller_rxu (a : ChipAddr) : (latchCaller a s).rxu = s.rxu := rfl
@[simp] theorem latchCaller_txu (a : ChipAddr) : (latchCaller a s).txu = s.txu := rfl
@[simp] theorem latchCaller_sre (a : ChipAddr) :
    (latchCaller a s).sre = { s.sre with callerWaiting := true, addr := a } :=
  rfl
@[simp] theorem latchCaller_chip (a : ChipAddr) : (latchCaller a s).chip = s.chip := rfl
@[simp] theorem latchCaller_mainStepped (a : ChipAddr) : (latchCaller a s).mainStepped = s.mainStepped := rfl
@[simp] theorem latchCaller_ret (a : ChipAddr) : (latchCaller a s).ret = s.ret := rfl
@[simp] theorem latchCaller_draws (a : ChipAddr) : (latchCaller a s).draws = s.draws := rfl
@[simp] theorem latchCaller_inputs (a : ChipAddr) : (latchCaller a s).inputs = s.inputs := rfl

/-! ### startTransaction -/

@[simp] theorem startTransaction_cfg (ph : SrePhase) (b : DatagramBytes) :
    (startTransaction ph b s).cfg = s.cfg :=
  rfl
@[simp] theorem startTransaction_rxu (ph : SrePhase) (b : DatagramBytes) :
    (startTransaction ph b s).rxu = s.rxu :=
  rfl
@[simp] theorem startTransaction_txu (ph : SrePhase) (b : DatagramBytes) :
    (startTransaction ph b s).txu = s.txu :=
  rfl
@[simp] theorem startTransaction_sre (ph : SrePhase) (b : DatagramBytes) :
    (startTransaction ph b s).sre = { s.sre with phase := ph, tx := b, k := 0, cs := true, eng := .put } :=
  rfl
@[simp] theorem startTransaction_chip (ph : SrePhase) (b : DatagramBytes) :
    (startTransaction ph b s).chip = s.chip.csEdge s.sre.cs true :=
  rfl
@[simp] theorem startTransaction_mainStepped (ph : SrePhase) (b : DatagramBytes) :
    (startTransaction ph b s).mainStepped = s.mainStepped :=
  rfl
@[simp] theorem startTransaction_ret (ph : SrePhase) (b : DatagramBytes) :
    (startTransaction ph b s).ret = s.ret :=
  rfl
@[simp] theorem startTransaction_draws (ph : SrePhase) (b : DatagramBytes) :
    (startTransaction ph b s).draws = s.draws :=
  rfl
@[simp] theorem startTransaction_inputs (ph : SrePhase) (b : DatagramBytes) :
    (startTransaction ph b s).inputs = s.inputs :=
  rfl

/-! ### shiftByte -/

@[simp] theorem shiftByte_cfg (r : Byte) : (shiftByte r s).cfg = s.cfg := rfl
@[simp] theorem shiftByte_rxu (r : Byte) : (shiftByte r s).rxu = s.rxu := rfl
@[simp] theorem shiftByte_txu (r : Byte) : (shiftByte r s).txu = s.txu := rfl
@[simp] theorem shiftByte_sre (r : Byte) :
    (shiftByte r s).sre = { s.sre with rxdr := r, rxne := true, txe := true } :=
  rfl
@[simp] theorem shiftByte_chip (r : Byte) : (shiftByte r s).chip = s.chip.shift s.sre.txdr := rfl
@[simp] theorem shiftByte_mainStepped (r : Byte) : (shiftByte r s).mainStepped = s.mainStepped := rfl
@[simp] theorem shiftByte_ret (r : Byte) : (shiftByte r s).ret = s.ret := rfl
@[simp] theorem shiftByte_draws (r : Byte) : (shiftByte r s).draws = s.draws := rfl
@[simp] theorem shiftByte_inputs (r : Byte) : (shiftByte r s).inputs = s.inputs := rfl

/-! ### resumeCaller -/

@[simp] theorem resumeCaller_cfg (v : CallResult) : (resumeCaller v s).cfg = s.cfg := rfl
@[simp] theorem resumeCaller_rxu (v : CallResult) : (resumeCaller v s).rxu = s.rxu := rfl
@[simp] theorem resumeCaller_txu (v : CallResult) : (resumeCaller v s).txu = s.txu := rfl
@[simp] theorem resumeCaller_sre (v : CallResult) :
    (resumeCaller v s).sre = { s.sre with eng := .idle, callerWaiting := false } :=
  rfl
@[simp] theorem resumeCaller_chip (v : CallResult) : (resumeCaller v s).chip = s.chip := rfl
@[simp] theorem resumeCaller_mainStepped (v : CallResult) : (resumeCaller v s).mainStepped = s.mainStepped := rfl
@[simp] theorem resumeCaller_ret (v : CallResult) : (resumeCaller v s).ret = some v := rfl
@[simp] theorem resumeCaller_draws (v : CallResult) : (resumeCaller v s).draws = s.draws := rfl
@[simp] theorem resumeCaller_inputs (v : CallResult) : (resumeCaller v s).inputs = s.inputs := rfl

/-! ### takeReply -/

@[simp] theorem takeReply_cfg : (takeReply s).cfg = s.cfg := rfl
@[simp] theorem takeReply_rxu : (takeReply s).rxu = s.rxu := rfl
@[simp] theorem takeReply_txu : (takeReply s).txu = s.txu := rfl
@[simp] theorem takeReply_sre :
    (takeReply s).sre = { s.sre with rx := s.sre.rx.set s.sre.k s.sre.rxdr, rxne := false } :=
  rfl
@[simp] theorem takeReply_chip : (takeReply s).chip = s.chip := rfl
@[simp] theorem takeReply_mainStepped : (takeReply s).mainStepped = s.mainStepped := rfl
@[simp] theorem takeReply_ret : (takeReply s).ret = s.ret := rfl
@[simp] theorem takeReply_draws : (takeReply s).draws = s.draws := rfl
@[simp] theorem takeReply_inputs : (takeReply s).inputs = s.inputs := rfl

/-! ### wholeTransaction -/

@[simp] theorem wholeTransaction_cfg (b q : DatagramBytes) : (wholeTransaction b q s).cfg = s.cfg := rfl
@[simp] theorem wholeTransaction_rxu (b q : DatagramBytes) : (wholeTransaction b q s).rxu = s.rxu := rfl
@[simp] theorem wholeTransaction_txu (b q : DatagramBytes) : (wholeTransaction b q s).txu = s.txu := rfl
@[simp] theorem wholeTransaction_sre (b q : DatagramBytes) :
    (wholeTransaction b q s).sre = { s.sre with tx := b, rx := q, txdr := b[4], rxdr := q[4], k := 4, cs := false, txe := true, rxne := false } :=
  rfl
@[simp] theorem wholeTransaction_chip (b q : DatagramBytes) : (wholeTransaction b q s).chip = s.chip.datagram b := rfl
@[simp] theorem wholeTransaction_mainStepped (b q : DatagramBytes) :
    (wholeTransaction b q s).mainStepped = s.mainStepped :=
  rfl
@[simp] theorem wholeTransaction_ret (b q : DatagramBytes) : (wholeTransaction b q s).ret = s.ret := rfl
@[simp] theorem wholeTransaction_draws (b q : DatagramBytes) : (wholeTransaction b q s).draws = s.draws + 5 := rfl
@[simp] theorem wholeTransaction_inputs (b q : DatagramBytes) : (wholeTransaction b q s).inputs = s.inputs := rfl

/-! ### nodeReset -/

@[simp] theorem nodeReset_cfg : (nodeReset s).cfg = s.cfg := rfl
@[simp] theorem nodeReset_rxu : (nodeReset s).rxu = Rxu.reset s.cfg := rfl
@[simp] theorem nodeReset_txu : (nodeReset s).txu = Txu.reset s.cfg := rfl
@[simp] theorem nodeReset_sre : (nodeReset s).sre = Sre.reset := rfl
@[simp] theorem nodeReset_chip : (nodeReset s).chip = s.chip.csEdge s.sre.cs false := rfl
@[simp] theorem nodeReset_mainStepped : (nodeReset s).mainStepped = false := rfl
@[simp] theorem nodeReset_ret : (nodeReset s).ret = none := rfl
@[simp] theorem nodeReset_draws : (nodeReset s).draws = s.draws := rfl
@[simp] theorem nodeReset_inputs : (nodeReset s).inputs = s.inputs := rfl

/-! ### setTurns -/

@[simp] theorem setTurns_cfg (ts : List Turn) : (setTurns ts s).cfg = s.cfg := rfl
@[simp] theorem setTurns_rxu (ts : List Turn) : (setTurns ts s).rxu = s.rxu := rfl
@[simp] theorem setTurns_txu (ts : List Turn) : (setTurns ts s).txu = s.txu := rfl
@[simp] theorem setTurns_sre (ts : List Turn) : (setTurns ts s).sre = s.sre := rfl
@[simp] theorem setTurns_chip (ts : List Turn) : (setTurns ts s).chip = s.chip := rfl
@[simp] theorem setTurns_mainStepped (ts : List Turn) : (setTurns ts s).mainStepped = s.mainStepped := rfl
@[simp] theorem setTurns_ret (ts : List Turn) : (setTurns ts s).ret = s.ret := rfl
@[simp] theorem setTurns_draws (ts : List Turn) : (setTurns ts s).draws = s.draws := rfl
@[simp] theorem setTurns_inputs (ts : List Turn) : (setTurns ts s).inputs = { s.inputs with turns := ts } := rfl

/-! ### markStep -/

@[simp] theorem markStep_cfg (a : Agent) : (markStep a s).cfg = s.cfg := rfl
@[simp] theorem markStep_rxu (a : Agent) : (markStep a s).rxu = s.rxu := rfl
@[simp] theorem markStep_txu (a : Agent) : (markStep a s).txu = s.txu := rfl
@[simp] theorem markStep_sre (a : Agent) : (markStep a s).sre = s.sre := rfl
@[simp] theorem markStep_chip (a : Agent) : (markStep a s).chip = s.chip := rfl
@[simp] theorem markStep_mainStepped (a : Agent) : (markStep a s).mainStepped = (s.mainStepped || a == .main) := rfl
@[simp] theorem markStep_ret (a : Agent) : (markStep a s).ret = s.ret := rfl
@[simp] theorem markStep_draws (a : Agent) : (markStep a s).draws = s.draws := rfl
@[simp] theorem markStep_inputs (a : Agent) : (markStep a s).inputs = s.inputs := rfl

/-! ### setPending -/

@[simp] theorem setPending_cfg (a : Agent) (rs : List Raw) : (setPending a rs s).cfg = s.cfg := rfl
@[simp] theorem setPending_rxu (a : Agent) (rs : List Raw) : (setPending a rs s).rxu = s.rxu := rfl
@[simp] theorem setPending_txu (a : Agent) (rs : List Raw) : (setPending a rs s).txu = s.txu := rfl
@[simp] theorem setPending_sre (a : Agent) (rs : List Raw) : (setPending a rs s).sre = s.sre := rfl
@[simp] theorem setPending_chip (a : Agent) (rs : List Raw) : (setPending a rs s).chip = s.chip := rfl
@[simp] theorem setPending_mainStepped (a : Agent) (rs : List Raw) :
    (setPending a rs s).mainStepped = s.mainStepped :=
  rfl
@[simp] theorem setPending_ret (a : Agent) (rs : List Raw) : (setPending a rs s).ret = s.ret := rfl
@[simp] theorem setPending_draws (a : Agent) (rs : List Raw) : (setPending a rs s).draws = s.draws := rfl
@[simp] theorem setPending_inputs (a : Agent) (rs : List Raw) :
    (setPending a rs s).inputs = s.inputs.setPending a rs :=
  rfl

end Sys2Proof.Machine
end

