-- ==== Sys2Proof/Laws/Ops.lean ====
section
/-! SUPPORT. For each shared operation with a condition in it: the fields it never changes, and one lemma that says
everything it can do. -/

namespace Sys2Proof.Machine

variable {s t : State}

/-! ### arrive, transmitted -/

theorem arrive_cases (f : Frame) (s : State) :
    (arrive f s = s ∧ (s.rxu.linkUp = false ∨ stageFull s = true)) ∨
    (arrive f s = { s with rxu := { s.rxu with hwq := s.rxu.hwq ++ [f] } } ∧ s.rxu.linkUp = true ∧
      stageFull s = false) := by
  unfold arrive
  split
  · exact .inl ⟨rfl, .inl (by simp_all)⟩
  · split
    · exact .inl ⟨rfl, .inr (by assumption)⟩
    · exact .inr ⟨rfl, by simp_all, by simp_all⟩

/-- An arrival touches the receive stage and nothing else. -/
theorem arrive_eq (f : Frame) (s : State) :
    arrive f s = { s with rxu := { s.rxu with hwq := (arrive f s).rxu.hwq } } := by
  rcases arrive_cases f s with ⟨h, -⟩ | ⟨h, -⟩ <;> rw [h]

@[simp] theorem arrive_cfg (f : Frame) : (arrive f s).cfg = s.cfg := by rw [arrive_eq]
@[simp] theorem arrive_txu (f : Frame) : (arrive f s).txu = s.txu := by rw [arrive_eq]
@[simp] theorem arrive_sre (f : Frame) : (arrive f s).sre = s.sre := by rw [arrive_eq]
@[simp] theorem arrive_chip (f : Frame) : (arrive f s).chip = s.chip := by rw [arrive_eq]
@[simp] theorem arrive_mainStepped (f : Frame) : (arrive f s).mainStepped = s.mainStepped := by rw [arrive_eq]
@[simp] theorem arrive_ret (f : Frame) : (arrive f s).ret = s.ret := by rw [arrive_eq]
@[simp] theorem arrive_draws (f : Frame) : (arrive f s).draws = s.draws := by rw [arrive_eq]
@[simp] theorem arrive_inputs (f : Frame) : (arrive f s).inputs = s.inputs := by rw [arrive_eq]

/-- The end of a transmission changes nothing, or is an arrival (in loopback). -/
theorem transmitted_cases (f : Frame) (s : State) :
    (transmitted f s = s ∧ s.rxu.loopback = false) ∨ (transmitted f s = arrive f s ∧ s.rxu.loopback = true) := by
  unfold transmitted
  cases h : s.rxu.loopback <;> simp

/-! ### produce -/

/-- The producer without a staged frame does nothing; with one it acknowledges it, and stores it first unless the
ring is full. -/
theorem produce_cases (s : State) :
    (produce s = s ∧ s.rxu.hwq = []) ∨
    (∃ f q, s.rxu.hwq = f :: q ∧ ringFull s = true ∧ produce s = { s with rxu := { s.rxu with hwq := q } }) ∨
    (∃ f q, s.rxu.hwq = f :: q ∧ ringFull s = false ∧ produce s = { s with
      rxu := { s.rxu with slots := s.rxu.slots.set s.rxu.head f, head := nextIndex s s.rxu.head, hwq := q } }) := by
  rcases hq : s.rxu.hwq with _ | ⟨f, q⟩
  · exact .inl ⟨by simp [produce, hq], rfl⟩
  · cases hf : ringFull s
    · exact .inr (.inr ⟨f, q, rfl, rfl, by simp [produce, hq, hf, acknowledge, storeFrame]⟩)
    · exact .inr (.inl ⟨f, q, rfl, rfl, by simp [produce, hq, hf, acknowledge]⟩)

/-- The producer touches the RXU and nothing else. -/
theorem produce_eq (s : State) : produce s = { s with rxu := (produce s).rxu } := by
  rcases produce_cases s with ⟨h, -⟩ | ⟨f, q, -, -, h⟩ | ⟨f, q, -, -, h⟩ <;> rw [h]

/-! ### rxPop -/

theorem rxPop_cases (s : State) :
    (rxPop s = s ∧ s.rxu.rxBusy = false) ∨
    (rxPop s = endReceive s ∧ s.rxu.rxBusy = true ∧ (s.rxu.rxLeft = 0 ∨ s.rxu.tail = s.rxu.head)) ∨
    (rxPop s = takeFrame s ∧ s.rxu.rxBusy = true ∧ s.rxu.rxLeft ≠ 0 ∧ s.rxu.tail ≠ s.rxu.head) := by
  unfold rxPop
  split
  · split
    · exact .inr (.inl ⟨rfl, by assumption, by simp_all⟩)
    · exact .inr (.inr ⟨rfl, by assumption, by simp_all, by simp_all⟩)
  · exact .inl ⟨rfl, by simp_all⟩

@[simp] theorem rxPop_cfg : (rxPop s).cfg = s.cfg := by rcases rxPop_cases s with ⟨h, -⟩ | ⟨h, -⟩ | ⟨h, -⟩ <;> rw [h] <;> rfl
@[simp] theorem rxPop_txu : (rxPop s).txu = s.txu := by rcases rxPop_cases s with ⟨h, -⟩ | ⟨h, -⟩ | ⟨h, -⟩ <;> rw [h] <;> rfl
@[simp] theorem rxPop_sre : (rxPop s).sre = s.sre := by rcases rxPop_cases s with ⟨h, -⟩ | ⟨h, -⟩ | ⟨h, -⟩ <;> rw [h] <;> rfl
@[simp] theorem rxPop_chip : (rxPop s).chip = s.chip := by rcases rxPop_cases s with ⟨h, -⟩ | ⟨h, -⟩ | ⟨h, -⟩ <;> rw [h] <;> rfl
@[simp] theorem rxPop_mainStepped : (rxPop s).mainStepped = s.mainStepped := by
  rcases rxPop_cases s with ⟨h, -⟩ | ⟨h, -⟩ | ⟨h, -⟩ <;> rw [h] <;> rfl
@[simp] theorem rxPop_inputs : (rxPop s).inputs = s.inputs := by rcases rxPop_cases s with ⟨h, -⟩ | ⟨h, -⟩ | ⟨h, -⟩ <;> rw [h] <;> rfl

/-! ### The byte exchange -/

theorem xchgPut_cases (s : State) :
    (xchgPut s = s ∧ (s.sre.eng ≠ .put ∨ s.sre.txe = false)) ∨
    (xchgPut s = { s with sre := { s.sre with txdr := s.sre.tx[s.sre.k], txe := false, eng := .get } } ∧
      s.sre.eng = .put ∧ s.sre.txe = true) := by
  unfold xchgPut
  split
  · exact .inr ⟨rfl, by simp_all⟩
  · exact .inl ⟨rfl, by rename_i h; simp at h; grind⟩

/-- The end of a transaction: `cs` is released, and the three ends by phase. -/
theorem endTransaction_cases (s : State) :
    (s.sre.phase = .wr ∧ endTransaction s = { s with
      sre := { s.sre with cs := false, eng := .idle, callerWaiting := false }
      chip := s.chip.csEdge s.sre.cs false, ret := some .written }) ∨
    (s.sre.phase = .rd1 ∧ endTransaction s = { s with
      sre := { s.sre with cs := false, eng := .settle }, chip := s.chip.csEdge s.sre.cs false }) ∨
    (s.sre.phase = .rd2 ∧ endTransaction s = { s with
      sre := { s.sre with cs := false, eng := .idle, callerWaiting := false, result := wordOfReply s.sre.rx }
      chip := s.chip.csEdge s.sre.cs false, ret := some (.readValue (wordOfReply s.sre.rx)) }) := by
  cases h : s.sre.phase <;> simp [endTransaction, setCs, resumeCaller, h]

theorem xchgGet_cases (s : State) :
    (xchgGet s = s ∧ (s.sre.eng ≠ .get ∨ s.sre.rxne = false)) ∨
    (s.sre.eng = .get ∧ s.sre.rxne = true ∧ s.sre.k.val < 4 ∧ xchgGet s = { s with
      sre := { s.sre with rx := s.sre.rx.set s.sre.k s.sre.rxdr, rxne := false, k := s.sre.k + 1, eng := .put } }) ∨
    (s.sre.eng = .get ∧ s.sre.rxne = true ∧ s.sre.k = 4 ∧ xchgGet s = endTransaction (takeReply s)) := by
  unfold xchgGet
  split
  · split
    · exact .inr (.inl ⟨by simp_all, by simp_all, by assumption, rfl⟩)
    · exact .inr (.inr ⟨by simp_all, by simp_all, by omega, rfl⟩)
  · exact .inl ⟨rfl, by rename_i h; simp at h; grind⟩

/-- An SRE micro-step is no step, an XCHG_PUT or an XCHG_GET. -/
theorem sreMicro_cases (s : State) :
    sreMicro s = s ∨ (s.rxu.inIsr = false ∧ s.sre.eng = .put ∧ sreMicro s = xchgPut s) ∨
    (s.rxu.inIsr = false ∧ s.sre.eng = .get ∧ sreMicro s = xchgGet s) := by
  unfold sreMicro
  cases hi : s.rxu.inIsr <;> cases he : s.sre.eng <;> simp

/-- The SRE's micro-steps touch the SRE, the chip and the returned result, and nothing else. -/
theorem sreMicro_eq (s : State) :
    sreMicro s = { s with sre := (sreMicro s).sre, chip := (sreMicro s).chip, ret := (sreMicro s).ret } := by
  rcases sreMicro_cases s with h | ⟨-, -, h⟩ | ⟨-, -, h⟩
  · rw [h]
  · rcases xchgPut_cases s with ⟨g, -⟩ | ⟨g, -⟩ <;> rw [h, g]
  · rcases xchgGet_cases s with ⟨g, -⟩ | ⟨-, -, -, g⟩ | ⟨-, -, -, g⟩
    · rw [h, g]
    · rw [h, g]
    · rcases endTransaction_cases (takeReply s) with ⟨-, e⟩ | ⟨-, e⟩ | ⟨-, e⟩ <;> rw [h, g, e] <;> rfl

@[simp] theorem sreMicro_cfg : (sreMicro s).cfg = s.cfg := by rw [sreMicro_eq]
@[simp] theorem sreMicro_rxu : (sreMicro s).rxu = s.rxu := by rw [sreMicro_eq]
@[simp] theorem sreMicro_txu : (sreMicro s).txu = s.txu := by rw [sreMicro_eq]
@[simp] theorem sreMicro_mainStepped : (sreMicro s).mainStepped = s.mainStepped := by rw [sreMicro_eq]
@[simp] theorem sreMicro_inputs : (sreMicro s).inputs = s.inputs := by rw [sreMicro_eq]

/-! ### The chip -/

@[simp] theorem Chip.csEdge_rise (c : Chip) : c.csEdge false true = c.select := rfl
@[simp] theorem Chip.csEdge_fall (c : Chip) : c.csEdge true false = c.release := rfl
@[simp] theorem Chip.csEdge_same (b : Bool) (c : Chip) : c.csEdge b b = c := by cases b <;> rfl

/-- The release with five bytes in the buffer acts on the datagram they make. -/
theorem Chip.release_of_five (c : Chip) (h : c.count = 5) :
    c.release = if c.inBuf[0].getLsbD 7 then c.writeReg (addrOperand c.inBuf[0]) (wordOfReply c.inBuf)
      else c.latchReg (addrOperand c.inBuf[0]) := by simp [Chip.release, h]

/-- A whole datagram leaves five bytes in, `O` at the data word before it, and acts on its bytes. -/
theorem Chip.datagram_eq (b : DatagramBytes) (c : Chip) :
    c.datagram b =
      let d : Chip := { c with outWord := c.dataWord, count := 5, inBuf := b }
      if b[0].getLsbD 7 then d.writeReg (addrOperand b[0]) (wordOfReply b) else d.latchReg (addrOperand b[0]) := by
  have buf : ((((c.inBuf.setIfInBounds 0 b[0]).setIfInBounds 1 b[1]).setIfInBounds 2 b[2]).setIfInBounds 3
      b[3]).setIfInBounds 4 b[4] = b := by
    ext j hj : 1
    have : j = 0 ∨ j = 1 ∨ j = 2 ∨ j = 3 ∨ j = 4 := by omega
    rcases this with rfl | rfl | rfl | rfl | rfl <;> simp
  simp only [Chip.datagram, Chip.select, Chip.shift, Nat.reduceAdd, buf]
  rw [Chip.release_of_five _ rfl]

end Sys2Proof.Machine
end

