-- ==== Sys2Proof/Laws/Operands.lean ====
section
/-! SUPPORT. The bytes of the two datagrams (R60, R61, R91, R92), and what one whole datagram of each does to the
reference chip (R214, R215). -/

namespace Sys2Proof.Machine

/-- The value bytes, read back, are the value. -/
@[simp] theorem wordOfReply_msbFirst (b : Byte) (v : Word) : wordOfReply (msbFirst b v) = v := by
  simp only [wordOfReply, msbFirst, bitField, Vector.getElem_mk, List.getElem_toArray, List.getElem_cons_zero,
    List.getElem_cons_succ]
  apply BitVec.eq_of_getLsbD_eq
  intro i hi
  simp only [BitVec.getLsbD_extractLsb', BitVec.getLsbD_append]
  grind

@[simp] theorem msbFirst_zero (b : Byte) (v : Word) : (msbFirst b v)[0] = b := rfl

/-- Byte 0 of a write datagram: the write flag and the address. -/
theorem writeDatagram_head (a : ChipAddr) :
    (a.setWidth 8 ||| 0x80 : Byte).getLsbD 7 = true ∧ addrOperand (a.setWidth 8 ||| 0x80) = a := by
  constructor
  · decide +revert
  · decide +revert

/-- Byte 0 of a read datagram: no write flag, and the address. -/
theorem readDatagram_head (a : ChipAddr) :
    (a.setWidth 8 : Byte).getLsbD 7 = false ∧ addrOperand (a.setWidth 8) = a := by
  constructor
  · decide +revert
  · decide +revert

/-- A write datagram writes its register and leaves the data word alone. -/
theorem Chip.datagram_write (a : ChipAddr) (v : Word) (c : Chip) :
    c.datagram (writeDatagram a v) =
      Chip.writeReg a v { c with outWord := c.dataWord, count := 5, inBuf := writeDatagram a v } := by
  rw [Chip.datagram_eq]
  simp only [writeDatagram, msbFirst_zero, wordOfReply_msbFirst, writeDatagram_head, if_true]

/-- A read datagram latches its register for the next datagram. -/
theorem Chip.datagram_read (a : ChipAddr) (c : Chip) :
    c.datagram (readDatagram a) =
      Chip.latchReg a { c with outWord := c.dataWord, count := 5, inBuf := readDatagram a } := by
  rw [Chip.datagram_eq]
  simp [readDatagram, readDatagram_head]

end Sys2Proof.Machine
end

