-- ==== Sys2Proof/Laws/PerInstr.lean ====
section
/-! SUPPORT. Facts of every instruction as syntax, one lemma per constructor. Family OpCode: the op code each
instruction is encoded with (R96; for a datagram bit 39, R91 and R92), and the zero bits beside it. -/

namespace Sys2Proof.Laws.OpCode

/-- The op code of an instruction's record (R96); a datagram has none. -/
def opOf : Instr → Option (BitVec 4)
  | .linkInit _ => some 0x1
  | .receive _ => some 0x2
  | .send _ => some 0x3
  | .regWrite _ _ => some 0x4
  | .regRead _ => some 0x5
  | .rxIsr => some 0x8
  | .frameArrival _ => some 0x9
  | .txDone _ => some 0xA
  | .spiShift _ => some 0xB
  | .settleElapsed => some 0xC
  | .dgramWrite _ _ => none
  | .dgramRead _ => none

/-- A record carries its op code in its low four bits and zeros in the four above; a datagram carries 1 in bit 39
exactly when it writes. -/
def Statement (i : Instr) : Prop :=
  match encode i with
  | .opr o => opOf i = some (bitField o 0 4) ∧ bitField o 4 4 = 0
  | .dgram g => opOf i = none ∧ (g.getLsbD 39 = true ↔ i.mnemonic = "DGRAM_WRITE")

/-- The op code and the reserved bits of an encoded record. -/
theorem opRecord_fields (op : BitVec 4) (a : BitVec 8) (b : BitVec 16) (c : BitVec 32) (p : BitVec 64) :
    ∃ o, opRecord op a b c p = .opr o ∧ bitField o 0 4 = op ∧ bitField o 4 4 = 0 := by
  refine ⟨_, rfl, ?_, ?_⟩
  · exact congrArg OpRecord.op (OpRecord.ofBits_toBits { op := op, reserved := 0, a := a, b := b, c := c, p := p })
  · exact congrArg OpRecord.reserved
      (OpRecord.ofBits_toBits { op := op, reserved := 0, a := a, b := b, c := c, p := p })

/-- A record built with an instruction's op code meets the statement. -/
theorem of_opRecord {i : Instr} {op : BitVec 4} {a : BitVec 8} {b : BitVec 16} {c : BitVec 32} {p : BitVec 64}
    (he : encode i = opRecord op a b c p) (ho : opOf i = some op) : Statement i := by
  obtain ⟨o, hr, h0, h4⟩ := opRecord_fields op a b c p
  rw [Statement, he, hr]
  exact ⟨by rw [h0, ho], h4⟩

theorem linkInit (lb : Bool) : Statement (.linkInit lb) := of_opRecord rfl rfl
theorem receive (n : BitVec 16) : Statement (.receive n) := of_opRecord rfl rfl
theorem send (f : Frame) : Statement (.send f) := of_opRecord rfl rfl
theorem regWrite (a : BitVec 8) (v : Word) : Statement (.regWrite a v) := of_opRecord rfl rfl
theorem regRead (a : BitVec 8) : Statement (.regRead a) := of_opRecord rfl rfl
theorem rxIsr : Statement .rxIsr := of_opRecord rfl rfl
theorem frameArrival (f : Frame) : Statement (.frameArrival f) := of_opRecord rfl rfl
theorem txDone (i : BitVec 8) : Statement (.txDone i) := of_opRecord rfl rfl
theorem spiShift (r : Byte) : Statement (.spiShift r) := of_opRecord rfl rfl
theorem settleElapsed : Statement .settleElapsed := of_opRecord rfl rfl

theorem dgramWrite (a : ChipAddr) (v : Word) : Statement (.dgramWrite a v) := by
  refine ⟨rfl, ?_⟩
  have h : (1#1 ++ a ++ v).getLsbD 39 = true := by grind
  rw [h]
  simp [Instr.mnemonic]

theorem dgramRead (a : ChipAddr) : Statement (.dgramRead a) := by
  refine ⟨rfl, ?_⟩
  have h : (0#1 ++ a ++ 0#32).getLsbD 39 = false := by grind
  rw [h]
  simp [Instr.mnemonic]

end Sys2Proof.Laws.OpCode
end

