-- ==== Sys2Proof/Laws/Step.lean ====
section
/-! SUPPORT. What each meaning does when it answers a next state, and the one inversion lemma of the step. -/

namespace Sys2Proof.Machine

variable {s t : State}

/-! ### The meanings -/

theorem execLinkInit_next {lb : Bool} (h : execLinkInit lb s = .next t) :
    s.rxu.linkUp = false ∧ t = { s with
      rxu := { s.rxu with loopback := lb, head := 0, tail := 0, linkUp := true },
      txu := { s.txu with mailboxes := s.txu.mailboxes.map fun m => { m with busy := false } } } := by
  unfold execLinkInit at h
  split at h
  · cases h
  · exact ⟨by simp_all, by simpa using h.symm⟩

theorem execReceive_next {n : BitVec 16} (h : execReceive n s = .next t) :
    s.rxu.linkUp = true ∧ t = { s with rxu := { s.rxu with rxOut := [], rxLeft := n, rxBusy := true } } := by
  unfold execReceive at h
  split at h
  · cases h
  · exact ⟨by simp_all, by simpa using h.symm⟩

/-- The producer does the same inside the ISR context as outside it. -/
theorem produce_enterIsr (s : State) : produce (enterIsr s) = enterIsr (produce s) := by
  have hf : ringFull (enterIsr s) = ringFull s := rfl
  unfold produce
  rw [enterIsr_rxu, hf]
  cases s.rxu.hwq with
  | nil => rfl
  | cons f q => dsimp only; split <;> rfl

theorem produce_inIsr (s : State) : (produce s).rxu.inIsr = s.rxu.inIsr := by
  rcases produce_cases s with ⟨h, -⟩ | ⟨f, q, -, -, h⟩ | ⟨f, q, -, -, h⟩ <;> rw [h]

/-- The return undoes the entry. -/
theorem leaveIsr_enterIsr {s : State} (h : s.rxu.inIsr = false) : leaveIsr (enterIsr s) = s := by
  have : ({ s.rxu with inIsr := false } : Rxu) = s.rxu := by rw [← h]
  show ({ s with rxu := { s.rxu with inIsr := false } } : State) = s
  rw [this]

/-- Interrupt entry and return leave no trace: RX_ISR is the producer's work (R246, R247). -/
theorem execRxIsr_next (h : execRxIsr s = .next t) :
    (rxIsrEnabled s = false ∧ t = s) ∨ (rxIsrEnabled s = true ∧ t = produce s) := by
  unfold execRxIsr at h
  split at h
  · rename_i he
    refine .inr ⟨he, ?_⟩
    have hi : s.rxu.inIsr = false := by simp [rxIsrEnabled] at he; exact he.2
    have ht : t = leaveIsr (produce (enterIsr s)) := by simpa using h.symm
    rw [ht, produce_enterIsr, leaveIsr_enterIsr]
    rw [produce_inIsr, hi]
  · exact .inl ⟨by simp_all, by simpa using h.symm⟩

theorem execFrameArrival_next {f : Frame} (h : execFrameArrival f s = .next t) : t = arrive f s := by
  simpa [execFrameArrival] using h.symm

theorem execSend_next {f : Frame} (h : execSend f s = .next t) :
    s.rxu.linkUp = true ∧ f.len.toNat ≤ lenMax ∧
    ((freeMailbox s = none ∧ t = { s with ret := some (.sent false) }) ∨
     ∃ i, freeMailbox s = some i ∧ t = { loadMailbox i f s with ret := some (.sent true) }) := by
  unfold execSend at h
  split at h
  · cases h
  · split at h
    · cases h
    · refine ⟨by simp_all, by omega, ?_⟩
      split at h
      · exact .inl ⟨by assumption, by simpa using h.symm⟩
      · exact .inr ⟨_, by assumption, by simpa using h.symm⟩

theorem execTxDone_next {i : BitVec 8} (h : execTxDone i s = .next t) :
    i.toNat < s.cfg.nMailbox ∧
    (t = s ∨ ∃ m, s.txu.mailboxes[i.toNat]? = some m ∧ m.busy = true ∧
      t = transmitted m.frame (freeMailboxAt i.toNat s)) := by
  unfold execTxDone at h
  split at h
  · cases h
  · refine ⟨by omega, ?_⟩
    split at h
    · exact .inl (by simpa using h.symm)
    · split at h
      · exact .inr ⟨_, by assumption, by assumption, by simpa using h.symm⟩
      · exact .inl (by simpa using h.symm)

theorem execRegWrite_next {a : BitVec 8} {v : Word} (h : execRegWrite a v s = .next t) :
    s.sre.eng = .idle ∧ t = startTransaction .wr (writeDatagram (addrOperand a) v) (latchCaller (addrOperand a) s) := by
  unfold execRegWrite at h
  split at h
  · exact ⟨by simp_all, by simpa using h.symm⟩
  · cases h

theorem execRegRead_next {a : BitVec 8} (h : execRegRead a s = .next t) :
    s.sre.eng = .idle ∧ t = startTransaction .rd1 (readDatagram (addrOperand a)) (latchCaller (addrOperand a) s) := by
  unfold execRegRead at h
  split at h
  · exact ⟨by simp_all, by simpa using h.symm⟩
  · cases h

theorem execSpiShift_next {r : Byte} (h : execSpiShift r s = .next t) :
    (shiftEnabled s = false ∧ t = s) ∨ (shiftEnabled s = true ∧ t = shiftByte r s) := by
  unfold execSpiShift at h
  split at h
  · exact .inr ⟨by assumption, by simpa using h.symm⟩
  · exact .inl ⟨by simp_all, by simpa using h.symm⟩

theorem execSettleElapsed_next (h : execSettleElapsed s = .next t) :
    (s.sre.eng ≠ .settle ∧ t = s) ∨
    (s.sre.eng = .settle ∧ t = startTransaction .rd2 (readDatagram s.sre.addr) s) := by
  unfold execSettleElapsed at h
  split at h
  · exact .inr ⟨by simp_all, by simpa using h.symm⟩
  · exact .inl ⟨by simp_all, by simpa using h.symm⟩

theorem execDgramWrite_next {a : ChipAddr} {v : Word} (h : execDgramWrite a v s = .next t) :
    s.sre.eng = .idle ∧ t = wholeTransaction (writeDatagram a v) (drawReplies s) s := by
  unfold execDgramWrite at h
  split at h
  · exact ⟨by simp_all, by simpa using h.symm⟩
  · cases h

theorem execDgramRead_next {a : ChipAddr} (h : execDgramRead a s = .next t) :
    s.sre.eng = .idle ∧ t = wholeTransaction (readDatagram a) (drawReplies s) s := by
  unfold execDgramRead at h
  split at h
  · exact ⟨by simp_all, by simpa using h.symm⟩
  · cases h

/-! ### The inputs -/

@[simp] theorem Inputs.pending_setPending (a : Agent) (rs : List Raw) (n : Inputs) :
    (n.setPending a rs).pending a = rs := by cases a <;> rfl

@[simp] theorem Inputs.setPending_turns (a : Agent) (rs : List Raw) (n : Inputs) :
    (n.setPending a rs).turns = n.turns := by cases a <;> rfl

@[simp] theorem Inputs.setPending_setPending (a : Agent) (rs qs : List Raw) (n : Inputs) :
    (n.setPending a rs).setPending a qs = n.setPending a qs := by cases a <;> rfl

@[simp] theorem Inputs.setPending_pending (a : Agent) (n : Inputs) : n.setPending a (n.pending a) = n := by
  cases a <;> rfl

theorem Inputs.pending_turns (a : Agent) (ts : List Turn) (n : Inputs) :
    ({ n with turns := ts } : Inputs).pending a = n.pending a := by cases a <;> rfl

/-! ### The step -/

/-- Everything a step can do: the schedule advances, perhaps an offered record is taken off, and then nothing, a
micro-step of the drain, a micro-step of the SRE, an instruction offered by its issuer, or a node reset. -/
inductive StepCase (s t : State) (n : Inputs) : Prop where
  | stay (eq : t = { s with inputs := n })
  | pop (ready : holds .main s = false) (busy : s.rxu.rxBusy = true) (eq : t = rxPop { s with inputs := n })
  | micro (eq : t = sreMicro { s with inputs := n })
  | run (i : Instr) (m : Bool) (turn : s.inputs.turns.head? = some (.agent i.issuer)) (ready : holds i.issuer s = false)
      (free : inMicroSteps i.issuer s = false) (mark : m = (s.mainStepped || i.issuer == .main))
      (eq : exec i { s with inputs := n, mainStepped := m } = .next t)
  | reset (turn : s.inputs.turns.head? = some .nodeReset) (eq : t = nodeReset { s with inputs := n })

theorem step_cases (h : step s = .next t) : ∃ n : Inputs, n.turns = s.inputs.turns.tail ∧ StepCase s t n := by
  unfold step scheduledStep at h
  split at h
  · rename_i hts
    refine ⟨s.inputs, by simp [hts], ?_⟩
    have ht : t = unscheduled s := by simpa using h.symm
    unfold unscheduled at ht
    split at ht
    · rename_i hm
      simp [inMicroSteps] at hm
      exact .pop hm.1 hm.2 ht
    · split at ht
      · exact .stay ht
      · exact .micro ht
  · rename_i u ts hts
    cases u with
    | nodeReset =>
      exact ⟨{ s.inputs with turns := ts }, by simp [hts],
        .reset (by simp [hts]) (by simpa [takeTurn, setTurns] using h.symm)⟩
    | agent a =>
      simp only [takeTurn, agentTurn] at h
      have hh : holds a (setTurns ts s) = holds a s := by cases a <;> rfl
      have hm : inMicroSteps a (setTurns ts s) = inMicroSteps a s := by cases a <;> rfl
      rw [hh, hm] at h
      split at h
      · split at h
        · cases h
        · exact ⟨{ s.inputs with turns := ts }, by simp [hts], .stay (by simpa [setTurns] using h.symm)⟩
      · rename_i hready
        split at h
        · rename_i hmicro
          refine ⟨{ s.inputs with turns := ts }, by simp [hts], ?_⟩
          have ht : t = microStep a (setTurns ts s) := by simpa using h.symm
          cases a with
          | main => exact .pop (by simpa using hready) hmicro ht
          | sre => exact .micro ht
          | isr => exact .stay ht
          | bus => exact .stay ht
          | serialEnv => exact .stay ht
          | chip => exact .stay ht
        · rename_i hfree
          split at h
          · refine ⟨{ s.inputs with turns := ts }, by simp [hts], ?_⟩
            cases a with
            | isr =>
              exact .run .rxIsr s.mainStepped (by simp [hts, Instr.issuer]) rfl rfl (by simp [Instr.issuer]) h
            | main => exact .stay (by simpa [spontaneous, setTurns] using h.symm)
            | bus => exact .stay (by simpa [spontaneous, setTurns] using h.symm)
            | serialEnv => exact .stay (by simpa [spontaneous, setTurns] using h.symm)
            | sre => exact .stay (by simpa [spontaneous, setTurns] using h.symm)
            | chip => exact .stay (by simpa [spontaneous, setTurns] using h.symm)
          · rename_i r rs hp
            refine ⟨({ s.inputs with turns := ts } : Inputs).setPending a rs, by simp [hts], ?_⟩
            unfold offer at h
            split at h
            · cases h
            · rename_i i _
              split at h
              · rename_i hi
                subst hi
                exact .run i _ (by simp [hts]) (by simpa using hready) (by simpa using hfree) rfl h
              · cases h

end Sys2Proof.Machine
end

