-- ==== Sys2Proof/Laws/Ring.lean ====
section
/-! SUPPORT. The ring as a queue: what a store and a copy do to the undelivered frames (R26, R71, R72, R132). -/

namespace Sys2Proof.Machine

variable {s t : State}

theorem ringFrames_congr (hc : t.cfg = s.cfg) (hs : t.rxu.slots = s.rxu.slots) (hh : t.rxu.head = s.rxu.head)
    (ht : t.rxu.tail = s.rxu.tail) : ringFrames t = ringFrames s := by
  simp [ringFrames, occupancy, slotAt, hc, hs, hh, ht]

@[simp] theorem length_ringFrames (s : State) : (ringFrames s).length = occupancy s := by simp [ringFrames]

/-- The index the ring's arithmetic gives, without the remainder. -/
theorem mod_ring {n x : Nat} (h : x < 2 * n) : x % n = if x < n then x else x - n := by
  split
  · exact Nat.mod_eq_of_lt (by assumption)
  · rw [Nat.mod_eq_sub_mod (by omega), Nat.mod_eq_of_lt (by omega)]

theorem occupancy_eq (hh : s.rxu.head < s.cfg.ringN) (ht : s.rxu.tail < s.cfg.ringN) :
    occupancy s = if s.rxu.tail ≤ s.rxu.head then s.rxu.head - s.rxu.tail
      else s.rxu.head + s.cfg.ringN - s.rxu.tail := by
  unfold occupancy
  rw [mod_ring (by omega)]
  split <;> split <;> omega

theorem nextIndex_eq {i : Nat} (hi : i < s.cfg.ringN) :
    nextIndex s i = if i + 1 = s.cfg.ringN then 0 else i + 1 := by
  unfold nextIndex
  rw [mod_ring (by omega)]
  split <;> split <;> omega

theorem nextIndex_lt {i : Nat} (h : 0 < s.cfg.ringN) : nextIndex s i < s.cfg.ringN := Nat.mod_lt _ h

theorem ringEmpty_iff (hh : s.rxu.head < s.cfg.ringN) (ht : s.rxu.tail < s.cfg.ringN) :
    s.rxu.tail = s.rxu.head ↔ occupancy s = 0 := by
  rw [occupancy_eq hh ht]
  split <;> omega

theorem ringFull_iff (hh : s.rxu.head < s.cfg.ringN) (ht : s.rxu.tail < s.cfg.ringN) (hn : 2 ≤ s.cfg.ringN) :
    ringFull s = true ↔ occupancy s + 1 = s.cfg.ringN := by
  simp only [ringFull, beq_iff_eq]
  rw [occupancy_eq hh ht, nextIndex_eq hh]
  split <;> split <;> omega

/-- A frame stored in a ring that is not full joins the undelivered frames at their end, and writes none of theirs
(R125, R132). -/
theorem ringFrames_store (f : Frame) (hl : s.rxu.slots.length = s.cfg.ringN) (hh : s.rxu.head < s.cfg.ringN)
    (ht : s.rxu.tail < s.cfg.ringN) (hf : ringFull s = false)
    (hc : t.cfg = s.cfg) (hs : t.rxu.slots = s.rxu.slots.set s.rxu.head f)
    (hd : t.rxu.head = nextIndex s s.rxu.head) (htl : t.rxu.tail = s.rxu.tail) :
    ringFrames t = ringFrames s ++ [f] := by
  have hf' : ¬ nextIndex s s.rxu.head = s.rxu.tail := by simpa [ringFull] using hf
  have hocc : occupancy t = occupancy s + 1 := by
    rw [occupancy_eq (s := t) (by rw [hd, hc]; exact nextIndex_lt (by omega)) (by rw [htl, hc]; exact ht),
      occupancy_eq hh ht, hd, htl, hc]
    rw [nextIndex_eq hh] at hf' ⊢
    split <;> split <;> split <;> simp_all <;> omega
  have hlt : occupancy s < s.cfg.ringN := Nat.mod_lt _ (by omega)
  apply List.ext_getElem (by simp [hocc])
  intro j hj1 hj2
  simp only [length_ringFrames, hocc] at hj1
  simp only [ringFrames, List.getElem_map, List.getElem_range, slotAt, hs, htl, hc]
  rcases Nat.lt_or_ge j (occupancy s) with hlt' | hge
  · rw [List.getElem_append_left (by simpa using hlt')]
    simp only [List.getElem_map, List.getElem_range]
    rw [List.getD_eq_getElem?_getD, List.getD_eq_getElem?_getD, List.getElem?_set_ne]
    rw [mod_ring (by omega)]
    rw [occupancy_eq hh ht] at hlt'
    split at hlt' <;> split <;> omega
  · have : j = occupancy s := by omega
    subst this
    rw [List.getElem_append_right (by simp)]
    have hidx : (s.rxu.tail + occupancy s) % s.cfg.ringN = s.rxu.head := by
      rw [mod_ring (by omega), occupancy_eq hh ht]
      split <;> split <;> omega
    simp [hidx, List.getD_eq_getElem?_getD, List.getElem?_set_self (by omega : s.rxu.head < s.rxu.slots.length)]

/-- The frame copied out is the oldest undelivered one, and the others remain in order (R128, R73). -/
theorem ringFrames_take (hh : s.rxu.head < s.cfg.ringN) (ht : s.rxu.tail < s.cfg.ringN)
    (hne : s.rxu.tail ≠ s.rxu.head) (hc : t.cfg = s.cfg) (hs : t.rxu.slots = s.rxu.slots)
    (hd : t.rxu.head = s.rxu.head) (htl : t.rxu.tail = nextIndex s s.rxu.tail) :
    ringFrames s = slotAt s s.rxu.tail :: ringFrames t := by
  have hocc : occupancy s = occupancy t + 1 := by
    rw [occupancy_eq (s := t) (by rw [hd, hc]; exact hh) (by rw [htl, hc]; exact nextIndex_lt (by omega)),
      occupancy_eq hh ht, hd, htl, hc]
    rw [nextIndex_eq ht]
    split <;> split <;> split <;> simp_all <;> omega
  have hlt : occupancy s < s.cfg.ringN := Nat.mod_lt _ (by omega)
  apply List.ext_getElem (by simp [hocc])
  intro j hj1 hj2
  simp only [length_ringFrames] at hj1
  rcases j with _ | j
  · simp [ringFrames, Nat.mod_eq_of_lt ht]
  · simp only [ringFrames, List.getElem_map, List.getElem_range, List.getElem_cons_succ, slotAt, hs, htl, hc]
    congr 1
    unfold nextIndex
    rw [Nat.mod_add_mod]
    congr 1
    omega

end Sys2Proof.Machine
end

