-- ==== Sys2Proof/Tests/Slice0.lean ====
section
/-! SUPPORT. The model's own tests: operand checks, words written out from the spec, single steps with the results of
95_test_vectors.md section 2 (the vector is named beside each), and for every statement with hypotheses a witness
that meets them. -/

namespace Sys2Proof.Tests

open Sys2Proof Sys2Proof.Machine

/-! ### Small states -/

/-- A frame of length 1 with identifier `i`. -/
def frameOf (i : FrameId) : Frame := { id := i, len := 1, data := Vector.replicate 8 i.toNat }

/-- Ring of 4 slots, 3 mailboxes, receive stage of 3. -/
def cfg : Params := { ringN := 4, nMailbox := 3, hwRxDepth := 3 }

/-- MAIN has stepped and the link is up; four distinct frames stand in the slots; `head`, `tail` and the receive stage as given. -/
def link (head tail : Nat) (hwq : List Frame) : State :=
  { State.resetWith cfg with
    mainStepped := true
    rxu := { Rxu.reset cfg with
      slots := [frameOf 0, frameOf 1, frameOf 2, frameOf 3], head := head, tail := tail, hwq := hwq, linkUp := true } }

/-- As `link`, with a drain in progress. -/
def draining (head tail : Nat) (left : BitVec 16) : State :=
  { link head tail [] with rxu := { (link head tail []).rxu with rxBusy := true, rxLeft := left } }

/-- The link is up and the mailboxes are busy as given, mailbox `i` with `frameOf i`. -/
def boxes (lb b0 b1 b2 : Bool) : State :=
  { link 0 0 [] with
    rxu := { (link 0 0 []).rxu with loopback := lb }
    txu := { mailboxes := [⟨b0, frameOf 0⟩, ⟨b1, frameOf 1⟩, ⟨b2, frameOf 2⟩] } }

/-- The link is up and the engine is inside a transaction of REG_WRITE 0x21, 0x12345678. -/
def engine (eng : EngState) (ph : SrePhase) (k : Fin 5) (txe rxne : Bool) : State :=
  { link 0 0 [] with
    sre := { Sre.reset with
      eng := eng, phase := ph, k := k, txe := txe, rxne := rxne, cs := eng != .settle, callerWaiting := true
      addr := 0x21, tx := #v[0xA1, 0x12, 0x34, 0x56, 0x78], txdr := 0x78, rxdr := 0xDD
      rx := #v[0x09, 0xAA, 0xBB, 0xCC, 0x00] } }

/-- As `engine`, the last byte shifted, of the datagram `b`, with the chip in step. -/
def lastByte (ph : SrePhase) (b : DatagramBytes) : State :=
  { engine .get ph 4 true true with
    sre := { (engine .get ph 4 true true).sre with tx := b }
    chip := { Chip.initial with count := 5, inBuf := b } }

/-- The link is up and the ISR runs. -/
def insideIsr : State := { link 1 0 [frameOf 9] with rxu := { (link 1 0 [frameOf 9]).rxu with inIsr := true } }

/-- The state with the given turns scheduled. -/
def withTurns (ts : List Turn) (s : State) : State := setTurns ts s

/-- The next state of an outcome. -/
def nextOf (o : Host.Outcome State Fault Refusal) : Option State :=
  match o with
  | .next s => some s
  | .fault _ => none
  | .refused _ => none

/-- The refusal of an outcome. -/
def refusalOfOutcome (o : Host.Outcome State Fault Refusal) : Option Refusal :=
  match o with
  | .next _ => none
  | .fault _ => none
  | .refused r => some r

/-! ### Operand checks: ill-formed terms are refused -/

theorem test_wf_send_len_9 : (Instr.send { frameOf 1 with len := 9 }).wellFormed cfg = false := by decide
theorem test_wf_send_len_8 : (Instr.send { frameOf 1 with len := 8 }).wellFormed cfg = true := by decide
theorem test_wf_tx_done_3 : (Instr.txDone 3).wellFormed cfg = false := by decide
theorem test_wf_tx_done_2 : (Instr.txDone 2).wellFormed cfg = true := by decide

/-! ### Words of 95_test_vectors.md 2.3, and of R91 and R92 -/

theorem test_decode_link_init : decodeTableWord 128 0x00000000000000000000000000000101 = some (.linkInit true) := by
  decide
theorem test_decode_receive : decodeTableWord 128 0x00000000000000000000000000040002 = some (.receive 4) := by decide
theorem test_decode_send : decodeTableWord 128 0x00000000000000050000000007010103 =
    some (.send { id := 0x701, len := 1, data := #v[5, 0, 0, 0, 0, 0, 0, 0] }) := by decide
theorem test_decode_reg_write : decodeTableWord 128 0x00000000000000001234567800002104 =
    some (.regWrite 0x21 0x12345678) := by decide
theorem test_decode_reg_read : decodeTableWord 128 0x00000000000000000000000000002105 = some (.regRead 0x21) := by
  decide
theorem test_decode_rx_isr : decodeTableWord 128 0x00000000000000000000000000000008 = some .rxIsr := by decide
theorem test_decode_frame_arrival : decodeTableWord 128 0x000000000000BBAA0000000001810209 =
    some (.frameArrival { id := 0x181, len := 2, data := #v[0xAA, 0xBB, 0, 0, 0, 0, 0, 0] }) := by decide
theorem test_decode_tx_done : decodeTableWord 128 0x0000000000000000000000000000020A = some (.txDone 2) := by decide
theorem test_decode_spi_shift : decodeTableWord 128 0x00000000000000000000000000005A0B = some (.spiShift 0x5A) := by
  decide
theorem test_decode_settle_elapsed : decodeTableWord 128 0x0000000000000000000000000000000C = some .settleElapsed := by
  decide
theorem test_decode_dgram_write : decodeTableWord 40 0xA112345678 = some (.dgramWrite 0x21 0x12345678) := by decide
theorem test_decode_dgram_read : decodeTableWord 40 0x2100000000 = some (.dgramRead 0x21) := by decide
theorem test_reject_op_6 : decodeTableWord 128 0x00000000000000000000000000000006 = none := by decide
theorem test_reject_link_init_a_3 : decodeTableWord 128 0x00000000000000000000000000000301 = none := by decide
theorem test_reject_bytes_4 : decodeBytes [0xA1, 0x12, 0x34, 0x56] = .error .badLength := by rfl
theorem test_decode_bytes_5 : (decodeBytes [0xA1, 0x12, 0x34, 0x56, 0x78]).toOption =
    some (.dgramWrite 0x21 0x12345678) := by decide

/-! ### Single steps -/

/-- RX1. -/
theorem test_link_init : (nextOf (step (State.reset.withFetchWord 128 0x1))).map
    (fun t => (t.rxu.linkUp, t.rxu.loopback, t.rxu.head, t.rxu.tail)) = some (true, false, 0, 0) := by decide
/-- RX2. -/
theorem test_link_init_twice : refusalOfOutcome (exec (.linkInit true) (link 0 0 [])) = some .linkReinit := by decide
/-- RX3. -/
theorem test_arrival_link_down : (nextOf (exec (.frameArrival (frameOf 0x10)) State.reset)).map
    (fun t => t.rxu.hwq) = some [] := by decide
/-- RX6: length 15 is kept. -/
theorem test_arrival_length_15 :
    (nextOf (exec (.frameArrival ⟨0x7FF, 15, #v[1, 2, 3, 4, 5, 6, 7, 8]⟩) (link 0 0 []))).map
      (fun t => (t.rxu.hwq, irqRx t)) = some ([⟨0x7FF, 15, #v[1, 2, 3, 4, 5, 6, 7, 8]⟩], true) := by decide
/-- RX8: full, dropped and acknowledged. -/
theorem test_rx_isr_full : (nextOf (exec .rxIsr (link 3 0 [frameOf 9]))).map
    (fun t => (t.rxu.head, t.rxu.slots, t.rxu.hwq)) =
      some (3, [frameOf 0, frameOf 1, frameOf 2, frameOf 3], []) := by decide
/-- RX9: stored in the last slot, `head` wraps, now full. -/
theorem test_rx_isr_wrap : (nextOf (exec .rxIsr (link 3 1 [frameOf 9]))).map
    (fun t => (t.rxu.head, t.rxu.slots.getLast?, t.rxu.hwq, ringFull t)) = some (0, some (frameOf 9), [], true) := by
  decide
/-- RX17. -/
theorem test_receive_link_down : refusalOfOutcome (exec (.receive 1) State.reset) = some .linkNotInitialised := by
  decide
/-- RX16: the drain takes slot 3 and `tail` wraps. -/
theorem test_rx_pop_wrap : (rxPop (draining 1 3 8)).rxu.tail = 0 ∧ (rxPop (draining 1 3 8)).rxu.rxOut = [frameOf 3] ∧
    (rxPop (draining 1 3 8)).rxu.rxLeft = 7 := by decide
/-- TX3. -/
theorem test_send_lowest_free : (nextOf (exec (.send (frameOf 9)) (boxes false true false true))).map
    (fun t => (t.txu.mailboxes.map (·.busy), t.txu.mailboxes[1]?.map (·.frame), t.ret)) =
      some ([true, true, true], some (frameOf 9), some (.sent true)) := by decide
/-- TX4. -/
theorem test_send_all_busy : (nextOf (exec (.send (frameOf 9)) (boxes false true true true))).map
    (fun t => (t.txu, t.ret)) = some ((boxes false true true true).txu, some (.sent false)) := by decide
/-- TX7. -/
theorem test_tx_done : (nextOf (exec (.txDone 1) (boxes false false true false))).map
    (fun t => (t.txu.mailboxes.map (·.busy), t.rxu.hwq)) = some ([false, false, false], []) := by decide
/-- TX8. -/
theorem test_tx_done_loopback : (nextOf (exec (.txDone 1) (boxes true false true false))).map
    (fun t => (t.txu.mailboxes.map (·.busy), t.rxu.hwq)) = some ([false, false, false], [frameOf 1]) := by decide
/-- SR1, step 1. -/
theorem test_reg_write : (nextOf (exec (.regWrite 0x21 0x12345678) State.reset)).map
    (fun t => (t.sre.tx, t.sre.cs, t.sre.eng)) = some (#v[0xA1, 0x12, 0x34, 0x56, 0x78], true, .put) := by decide
/-- SR4: bit 7 of the address is set. -/
theorem test_reg_write_bit7 : (nextOf (exec (.regWrite 0xA1 0x80000000) State.reset)).map (fun t => t.sre.tx) =
    some #v[0xA1, 0x80, 0, 0, 0] := by decide
/-- SR6. -/
theorem test_reg_read : (nextOf (exec (.regRead 0xA1) State.reset)).map (fun t => (t.sre.tx, t.sre.phase)) =
    some (#v[0x21, 0, 0, 0, 0], .rd1) := by decide
/-- SR11. -/
theorem test_reg_read_busy :
    refusalOfOutcome (step ((engine .get .wr 0 false false).withFetchWord 128 0x2105)) = some .serialBusy := by decide
/-- 95_test_vectors.md 2.3: `@isr` offered by MAIN. -/
theorem test_isr_offered_by_main : refusalOfOutcome (step (giveOffer .main (.opr 0x8) State.reset)) =
    some .wrongIssuer := by decide
/-- R270: an agent other than MAIN does not step first. -/
theorem test_sre_not_first : (nextOf (step (giveOffer .sre (.dgram 0xA112345678) State.reset))).map
    (fun t => (t.chip.regs[0x21], t.inputs.sre.length)) = some (0, 1) := by decide
/-- SR1, step 3. -/
theorem test_spi_shift : (nextOf (exec (.spiShift 0x5A) (engine .get .wr 4 false false))).map
    (fun t => (t.sre.rxdr, t.sre.rxne, t.sre.txe, t.chip.inBuf[0])) = some (0x5A, true, true, 0x78) := by decide
/-- SR10: the result is bytes 1 to 4 of the phase-2 replies. -/
theorem test_read_result : (xchgGet (engine .get .rd2 4 true true)).ret = some (.readValue 0xAABBCCDD) := by decide
/-- SR6, between the two phases. -/
theorem test_settle_elapsed : (nextOf (exec .settleElapsed (engine .settle .rd1 4 true false))).map
    (fun t => (t.sre.tx, t.sre.phase, t.sre.cs, t.sre.eng)) = some (#v[0x21, 0, 0, 0, 0], .rd2, true, .put) := by decide
/-- SR9: the register is written, `D` is unchanged. -/
theorem test_dgram_write : (nextOf (exec (.dgramWrite 0x21 0xFFFFFFFE) State.reset)).map
    (fun t => (t.chip.regs[0x21], t.chip.regs[0x20], t.chip.dataWord)) = some (0xFFFFFFFE, 0, 0) := by decide
/-- SR7: the reply is the old `D`, the register is latched for the next datagram. -/
theorem test_dgram_read : (nextOf (exec (.dgramRead 0x22)
    { State.reset with
      chip := { Chip.initial with regs := Chip.initial.regs.set 0x22 0xABCD, dataWord := 0xFFFFFFFE } })).map
    (fun t => (t.chip.outWord, t.chip.dataWord)) = some (0xFFFFFFFE, 0xABCD) := by decide

/-! ### Witnesses: the invariant and the chip's step -/

/-- A receive unit with ordinary contents meets its invariant, checked field by field. -/
theorem rxuInv_of {p : Params} {r : Rxu} (h : r.slots.length = p.ringN ∧ r.head < p.ringN ∧ r.tail < p.ringN ∧
    r.hwq.length ≤ p.hwRxDepth ∧ r.linkUp = true ∧ r.inIsr = false ∧
    r.rxOut.length + r.rxLeft.toNat < 2 ^ 16) : RxuInv p r := by
  obtain ⟨h1, h2, h3, h4, h5, h6, h7⟩ := h
  exact ⟨h1, h2, h3, h4, by simp [h5], by simp [h5], h6, fun _ => h7⟩

theorem inv_link_full : Inv (link 3 0 [frameOf 8, frameOf 9]) :=
  ⟨by decide, rxuInv_of (by decide), rfl, ⟨rfl, rfl, rfl, rfl⟩, by decide, by decide⟩
theorem inv_link_wrapped : Inv (link 1 3 []) :=
  ⟨by decide, rxuInv_of (by decide), rfl, ⟨rfl, rfl, rfl, rfl⟩, by decide, by decide⟩
theorem inv_link_empty : Inv (link 3 3 []) :=
  ⟨by decide, rxuInv_of (by decide), rfl, ⟨rfl, rfl, rfl, rfl⟩, by decide, by decide⟩
theorem inv_draining : Inv (draining 1 3 8) :=
  ⟨by decide, rxuInv_of (by decide), rfl, ⟨rfl, rfl, rfl, rfl⟩, by decide, by decide⟩
theorem inv_waiting : Inv (engine .get .wr 4 false false) :=
  ⟨by decide, rxuInv_of (by decide), rfl, ⟨rfl, rfl, rfl⟩, by decide, by decide⟩
theorem inv_settle : Inv (engine .settle .rd1 4 true false) :=
  ⟨by decide, rxuInv_of (by decide), rfl, ⟨rfl, rfl, rfl, rfl, rfl⟩, by decide, by decide⟩
theorem inv_lastByte_write : Inv (lastByte .wr (writeDatagram 0x21 0x12345678)) :=
  ⟨by decide, rxuInv_of (by decide), rfl, ⟨rfl, rfl, rfl⟩, by decide, by decide⟩
theorem inv_lastByte_read : Inv (lastByte .rd2 (readDatagram 0x7F)) :=
  ⟨by decide, rxuInv_of (by decide), rfl, ⟨rfl, rfl, rfl⟩, by decide, by decide⟩
theorem chip_lastByte_write : ChipInStep (lastByte .wr (writeDatagram 0x21 0x12345678)) :=
  ⟨rfl, by decide, fun _ _ => rfl⟩
theorem chip_lastByte_read : ChipInStep (lastByte .rd2 (readDatagram 0x7F)) :=
  ⟨rfl, by decide, fun _ _ => rfl⟩

/-! ### Witnesses: encoding -/

theorem witness_EncodeOfDecode : decode (.opr 0x00000000000000050000000007010103) =
    .ok (.send { id := 0x701, len := 1, data := #v[5, 0, 0, 0, 0, 0, 0, 0] }) := by rfl
theorem witness_DecodeAgreesWithOpcodeTable :
    (∀ row ∈ recordTable, row.2.1 &&& row.2.2 = row.2.1) ∧
    (∀ row ∈ datagramTable, row.2.1 &&& row.2.2 = row.2.1) := by decide
/-- Each clause of ReservedRecordsRefused, at the lowest bit outside the field. -/
theorem witness_ReservedRecordsRefused :
    (OpRecord.ofBits 0x6).op ∈ [0x0#4, 0x6#4, 0x7#4, 0xD#4, 0xE#4, 0xF#4] ∧ (OpRecord.ofBits 0x18).reserved ≠ 0 ∧
    ((OpRecord.ofBits 0x201).op = 0x1 ∧ bitField (OpRecord.ofBits 0x201).a 1 7 ≠ 0) ∧
    ((OpRecord.ofBits 0x102).op = 0x2 ∧ (OpRecord.ofBits 0x102).a ≠ 0) ∧
    ((OpRecord.ofBits 0x1003).op = 0x3 ∧ bitField (OpRecord.ofBits 0x1003).a 4 4 ≠ 0) ∧
    ((OpRecord.ofBits 0x8000009).op = 0x9 ∧ bitField (OpRecord.ofBits 0x8000009).b 11 5 ≠ 0) ∧
    ((OpRecord.ofBits 0x10004).op = 0x4 ∧ (OpRecord.ofBits 0x10004).b ≠ 0) ∧
    ((OpRecord.ofBits 0x100000005).op = 0x5 ∧ (OpRecord.ofBits 0x100000005).c ≠ 0) ∧
    ((OpRecord.ofBits 0x1000000000000000A).op = 0xA ∧ (OpRecord.ofBits 0x1000000000000000A).p ≠ 0) ∧
    ((OpRecord.ofBits 0x108).op = 0x8 ∧ (OpRecord.ofBits 0x108).a ≠ 0) ∧
    (holds .main State.reset = false ∧ inMicroSteps .main State.reset = false) := by decide
theorem witness_DecodeOfBytes : ([] : List Byte).length ≠ 5 ∧ (List.replicate 4 (0 : Byte)).length ≠ 5 ∧
    (List.replicate 15 (0 : Byte)).length ≠ 16 ∧ (List.replicate 17 (0 : Byte)).length ≠ 16 := by decide

/-! ### Witnesses: the step -/

theorem witness_StepRunsDecodedInstruction :
    let s := giveOffer .isr (.opr 0x8) (link 0 0 [])
    s.inputs.turns = [.agent .isr] ∧ s.inputs.pending .isr = [.opr 0x8] ∧ holds .isr s = false ∧
    inMicroSteps .isr s = false ∧ (decode (.opr 0x8)).toOption = some .rxIsr ∧ Instr.rxIsr.issuer = .isr := by decide
theorem witness_FetchWordRunsNext : decodeTableWord 40 0x2100000000 = some (.dgramRead 0x21) ∧
    holds .sre { State.reset with mainStepped := true } = false ∧ inMicroSteps .sre State.reset = false := by decide
theorem witness_WrongIssuerRefused :
    holds .main State.reset = false ∧ inMicroSteps .main State.reset = false ∧ Instr.rxIsr.issuer ≠ .main := by decide
theorem witness_HeldTurnsChangeNothing :
    (let s := withTurns [.agent .main] (engine .put .wr 0 true false)
     s.inputs.turns = [.agent .main] ∧ s.sre.callerWaiting = true ∧ s.inputs.main.head? = none) ∧
    (let s := withTurns [.agent .sre] (engine .settle .rd1 4 true false)
     s.inputs.turns = [.agent .sre] ∧ s.sre.eng = .settle) ∧ insideIsr.rxu.inIsr = true ∧
    (withTurns [.agent .main] insideIsr).inputs.turns = [.agent .main] ∧
    (withTurns [.agent .sre] insideIsr).inputs.turns = [.agent .sre] := by decide
/-- MAIN has not stepped and BUS has a frame to offer. -/
def early : State := giveOffer .bus (encode (.frameArrival (frameOf 5))) State.reset
theorem inv_early : Inv early :=
  ⟨by decide, ⟨by decide, by decide, by decide, by decide, fun _ => rfl, fun _ => rfl, rfl, fun h => nomatch h⟩, rfl,
    ⟨rfl, rfl, rfl, rfl⟩, by decide, by decide⟩
/-- Vector RX3 by a step, before MAIN's first: the frame is lost, its record taken. -/
theorem test_arrivalBeforeMain : step early = .next State.reset := rfl
theorem witness_FirstAgentToStepIsMain :
    (Inv early ∧ early.mainStepped = false ∧ early.inputs.turns = [.agent .bus] ∧ step early = .next State.reset) ∧
    (giveOffer .sre (.dgram 0) State.reset).inputs.turns = [.agent .sre] ∧
    (nextOf (step (giveOffer .main (.opr 0x1) State.reset))).map (fun t => t.mainStepped) = some true ∧
    (nextOf (step (withTurns [.nodeReset] (link 0 0 [])))).map (fun t => t.mainStepped) = some false :=
  ⟨⟨inv_early, by decide, by decide, test_arrivalBeforeMain⟩, by decide⟩
theorem witness_MicroStepsAreTheAgentsTurns :
    (holds .main (draining 1 3 8) = false ∧ (draining 1 3 8).rxu.rxBusy = true) ∧
    (holds .sre (engine .put .wr 0 true false) = false ∧ (engine .put .wr 0 true false).sre.eng = .put) ∧
    (holds .sre (engine .get .wr 4 true true) = false ∧ (engine .get .wr 4 true true).sre.eng = .get) := by decide
theorem witness_UnscheduledStep :
    (draining 1 3 8).inputs.turns = [] ∧ holds .main (draining 1 3 8) = false ∧ (draining 1 3 8).rxu.rxBusy = true ∧
    (engine .put .wr 0 true false).inputs.turns = [] ∧ holds .sre (engine .put .wr 0 true false) = false ∧
    (engine .put .wr 0 true false).sre.eng = .put ∧
    (engine .get .wr 4 true true).sre.eng = .get ∧ (engine .settle .rd1 4 true false).sre.eng = .settle ∧
    State.reset.sre.eng = .idle ∧ State.reset.rxu.rxBusy = false := by decide
theorem witness_NodeResetFromAnyState :
    (withTurns [.nodeReset] (engine .get .wr 4 true true)).inputs.turns = [.nodeReset] := by decide

/-! ### Witnesses: reception -/

theorem witness_LinkInitCompletes : State.reset.rxu.linkUp = false ∧ State.reset.rxu.hwq = [] := by decide
theorem witness_LinkRefusals : (link 0 0 []).rxu.linkUp = true ∧ State.reset.rxu.linkUp = false := by decide
theorem witness_FrameArrivalCompletes : State.reset.rxu.linkUp = false ∧
    (let s := link 0 0 [frameOf 7, frameOf 8, frameOf 9]
     s.rxu.linkUp = true ∧ s.rxu.hwq.length = s.cfg.hwRxDepth) ∧
    (let s := link 0 0 [frameOf 8, frameOf 9]
     s.rxu.linkUp = true ∧ s.rxu.hwq.length ≠ s.cfg.hwRxDepth) := by decide
theorem witness_RxIsrCompletes :
    (let s := link 3 0 [frameOf 9]
     s.rxu.linkUp = true ∧ s.rxu.hwq = [frameOf 9] ∧ s.rxu.inIsr = false ∧
       (s.rxu.head + 1) % s.cfg.ringN = s.rxu.tail) ∧
    (let s := link 2 0 [frameOf 9]
     s.rxu.linkUp = true ∧ s.rxu.hwq = [frameOf 9] ∧ s.rxu.inIsr = false ∧
       (s.rxu.head + 1) % s.cfg.ringN ≠ s.rxu.tail) := by decide
theorem witness_RxIsrOnlyWhenRequested : irqRx (link 0 0 []) = false ∧ insideIsr.rxu.inIsr = true ∧
    irqRx insideIsr = true := by decide
theorem witness_ReceiveStarts : (link 0 0 []).rxu.linkUp = true ∧ State.reset.rxu.linkUp = false := by decide
theorem witness_RxPopStep :
    (link 1 3 []).rxu.rxBusy = false ∧
    ((draining 1 3 0).rxu.rxBusy = true ∧ (draining 1 3 0).rxu.rxLeft = 0) ∧
    ((draining 3 3 8).rxu.rxBusy = true ∧ (draining 3 3 8).rxu.tail = (draining 3 3 8).rxu.head) ∧
    ((draining 1 3 1).rxu.rxBusy = true ∧ (draining 1 3 1).rxu.rxLeft ≠ 0 ∧
      (draining 1 3 1).rxu.tail ≠ (draining 1 3 1).rxu.head ∧
      (draining 1 3 1).rxu.tail < (draining 1 3 1).rxu.slots.length) := by decide
theorem witness_ReceiveReturnsOldestFrames :
    Inv (link 1 3 []) ∧ MainReady (link 1 3 []) ∧ (link 1 3 []).rxu.linkUp = true := ⟨inv_link_wrapped, by decide⟩
theorem witness_InterruptsFillTheRingInOrder :
    Inv (link 3 0 [frameOf 8, frameOf 9]) ∧ (link 3 0 [frameOf 8, frameOf 9]).rxu.linkUp = true :=
  ⟨inv_link_full, by decide⟩
theorem witness_FifoDelivery :
    Inv (link 3 3 []) ∧ MainReady (link 3 3 []) ∧ (link 3 3 []).rxu.linkUp = true ∧ (link 3 3 []).rxu.hwq = [] ∧
    ringEmpty (link 3 3 []) = true ∧ (link 3 3 []).inputs.isr = [] ∧
    [frameOf 7, frameOf 8, frameOf 9].length ≤ (link 3 3 []).cfg.ringN - 1 ∧
    [frameOf 7, frameOf 8, frameOf 9].length ≤ (3 : BitVec 16).toNat := ⟨inv_link_empty, by decide⟩
/-- A step that delivers a frame, and (for StepKeepsInv and ParametersNeverChange too) a step from an invariant
state. -/
theorem witness_StepMovesFramesInOrder :
    Inv (draining 1 3 8) ∧ step (draining 1 3 8) = .next (rxPop (draining 1 3 8)) := ⟨inv_draining, rfl⟩
theorem witness_SingleWriter :
    (nextOf (exec .rxIsr (link 2 0 [frameOf 9]))).any (fun t =>
      t.rxu.head != (link 2 0 []).rxu.head && t.rxu.slots != (link 2 0 []).rxu.slots) = true ∧
    (nextOf (exec (.linkInit false) { link 2 1 [] with rxu := { (link 2 1 []).rxu with linkUp := false } })).any
      (fun t => t.rxu.tail != 1) = true := by decide
theorem witness_InterruptStaysRequested :
    step (link 0 0 [frameOf 9]) = .next (link 0 0 [frameOf 9]) ∧ irqRx (link 0 0 [frameOf 9]) = true ∧
    (link 0 0 [frameOf 9]).inputs.turns.head? ≠ some (.agent .isr) ∧
    (link 0 0 [frameOf 9]).inputs.turns.head? ≠ some .nodeReset := ⟨rfl, by decide⟩
theorem witness_LinkStaysConfigured :
    step (link 0 0 []) = .next (link 0 0 []) ∧ (link 0 0 []).rxu.linkUp = true ∧
    (link 0 0 []).inputs.turns.head? ≠ some .nodeReset := ⟨rfl, by decide⟩

/-! ### Witnesses: transmission -/

theorem witness_SendCompletes :
    State.reset.rxu.linkUp = false ∧ 8 < (9 : BitVec 4).toNat ∧
    ((boxes false true true true).rxu.linkUp = true ∧ (8 : BitVec 4).toNat ≤ 8 ∧
      ∀ m ∈ (boxes false true true true).txu.mailboxes, m.busy = true) ∧
    (let s := boxes false true true false
     ∃ hi : 2 < s.txu.mailboxes.length, s.txu.mailboxes[2].busy = false ∧
       ∀ j (hj : j < 2), s.txu.mailboxes[j].busy = true) ∧
    (let s := boxes false false true true
     ∃ hi : 0 < s.txu.mailboxes.length, s.txu.mailboxes[0].busy = false) := by decide
theorem witness_OperandRangeChecks :
    (link 0 0 []).rxu.linkUp = true ∧ 8 < (9 : BitVec 4).toNat ∧ (link 0 0 []).cfg.nMailbox ≤ (3 : BitVec 8).toNat ∧
    (link 0 0 []).sre.eng = .idle := by decide
theorem witness_TxDoneCompletes :
    (boxes true false false true).cfg.nMailbox ≤ (3 : BitVec 8).toNat ∧
    (let s := boxes true false false true
     ∃ hi : (2 : BitVec 8).toNat < s.txu.mailboxes.length, (2 : BitVec 8).toNat < s.cfg.nMailbox ∧
       s.txu.mailboxes[(2 : BitVec 8).toNat].busy = true ∧ s.rxu.loopback = true) ∧
    (let s := boxes false false false true
     ∃ hi : (2 : BitVec 8).toNat < s.txu.mailboxes.length,
       s.txu.mailboxes[(2 : BitVec 8).toNat].busy = true ∧ s.rxu.loopback = false) ∧
    (let s := boxes false false false true
     ∃ hi : (0 : BitVec 8).toNat < s.txu.mailboxes.length,
       s.txu.mailboxes[(0 : BitVec 8).toNat].busy = false) := by decide
theorem witness_TwoSendsTakeTheLowestTwo :
    let s := boxes false false true false
    ∃ hj : 2 < s.txu.mailboxes.length, 0 < 2 ∧ s.rxu.linkUp = true ∧ (frameOf 8).len.toNat ≤ 8 ∧
      (frameOf 9).len.toNat ≤ 8 ∧ (∀ l (hl : l < 2), l ≠ 0 → s.txu.mailboxes[l].busy = true) ∧
      s.txu.mailboxes[0].busy = false ∧ s.txu.mailboxes[2].busy = false := by decide

/-! ### Witnesses: the serial engine -/

theorem witness_RegWriteStarts : State.reset.sre.eng = .idle ∧ State.reset.sre.cs = false := by decide
theorem witness_RegReadStarts : (link 0 0 []).sre.eng = .idle ∧ (link 0 0 []).sre.cs = false := by decide
theorem witness_BusyEngineRefuses : (engine .put .wr 0 true false).sre.eng ≠ .idle ∧
    (engine .get .wr 0 false false).sre.eng ≠ .idle ∧ (engine .settle .rd1 4 true false).sre.eng ≠ .idle ∧
    (engine .settle .rd1 4 true false).rxu.inIsr = false ∧ (engine .settle .rd1 4 true false).rxu.rxBusy = false := by
  decide
theorem witness_ByteExchangeMicroSteps :
    ((engine .put .wr 4 true false).sre.eng = .put ∧ (engine .put .wr 4 true false).sre.txe = true) ∧
    (engine .put .wr 4 false false).sre.txe = false ∧
    ((engine .get .wr 3 true true).sre.k.val < 4 ∧ (engine .get .wr 3 true true).sre.eng = .get ∧
      (engine .get .wr 3 true true).sre.rxne = true) ∧
    ((engine .get .wr 3 false false).sre.eng = .get ∧ (engine .get .wr 3 false false).sre.rxne = false) := by decide
theorem witness_SpiShiftCompletes :
    (let s := engine .get .wr 0 false false
     s.sre.cs = true ∧ s.sre.txe = false ∧ s.sre.rxne = false) ∧
    State.reset.sre.cs = false ∧ (engine .put .wr 0 true false).sre.txe = true ∧
    (engine .get .wr 0 true true).sre.rxne = true := by decide
theorem witness_TransactionEnds : ∀ ph ∈ [SrePhase.wr, SrePhase.rd1, SrePhase.rd2],
    let s := engine .get ph 4 true true
    s.sre.eng = .get ∧ s.sre.rxne = true ∧ s.sre.k = 4 ∧ s.sre.cs = true ∧ s.sre.phase = ph := by decide
theorem witness_SettleElapsedCompletes :
    ((engine .settle .rd1 4 true false).sre.eng = .settle ∧ (engine .settle .rd1 4 true false).sre.cs = false) ∧
    State.reset.sre.eng ≠ .settle := by decide
/-- For RegWriteRunsToItsEnd, RegReadReturnsPhaseTwo and WriteThenReadReturnsTheValue. -/
theorem witness_RegWriteRunsToItsEnd : Inv (link 3 3 []) ∧ MainReady (link 3 3 []) := ⟨inv_link_empty, by decide⟩
theorem witness_RegReadReturnsPhaseTwo : Inv (link 1 3 []) ∧ MainReady (link 1 3 []) := ⟨inv_link_wrapped, by decide⟩
theorem witness_WriteThenReadReturnsTheValue :
    Inv (link 3 0 [frameOf 8, frameOf 9]) ∧ MainReady (link 3 0 [frameOf 8, frameOf 9]) := ⟨inv_link_full, by decide⟩
theorem witness_UnitsAreIndependent :
    (nextOf (exec .rxIsr (link 2 0 [frameOf 9]))).isSome = true ∧
    (nextOf (exec (.receive 1) (link 2 0 []))).isSome = true ∧
    (Instr.txDone 1).issuer = .bus ∧ (nextOf (exec (.txDone 1) (boxes true false true false))).isSome = true ∧
    (Instr.spiShift 0).issuer = .serialEnv ∧ (nextOf (exec (.spiShift 0) (engine .get .wr 0 false false))).isSome = true ∧
    (Instr.dgramRead 0).issuer = .sre ∧ (nextOf (exec (.dgramRead 0) State.reset)).isSome = true ∧
    (nextOf (exec (.regWrite 0 0) State.reset)).isSome = true ∧
    (nextOf (exec (.regRead 0) State.reset)).isSome = true := by decide
theorem witness_StuckLinkHangs :
    Inv (withTurns [.agent .isr, .agent .main] (engine .get .wr 4 false false)) ∧
    (engine .get .wr 4 false false).sre.eng = .get ∧ (engine .get .wr 4 false false).sre.rxne = false ∧
    (∀ u ∈ [Turn.agent .isr, Turn.agent .main], u ≠ .agent .serialEnv ∧ u ≠ .nodeReset) ∧
    runFor 2 (withTurns [.agent .isr, .agent .main] (engine .get .wr 4 false false)) =
      .next (engine .get .wr 4 false false) :=
  ⟨⟨inv_waiting.1, inv_waiting.2, inv_waiting.3, inv_waiting.4, inv_waiting.5,
    inv_waiting.6⟩, rfl, rfl, by decide, rfl⟩
theorem witness_LoneDatagramsComplete : State.reset.sre.eng = .idle := by decide

/-! ### Witnesses: the whole machine -/

theorem witness_StepKeepsInv : Inv (engine .get .wr 4 false false) ∧
    step (engine .get .wr 4 false false) = .next (engine .get .wr 4 false false) := ⟨inv_waiting, rfl⟩
/-- The smallest legal parameters, and the reference system. -/
theorem witness_ResetHasInv : Params.Legal { ringN := 2, nMailbox := 1, hwRxDepth := 1 } ∧ Params.reference.Legal := by
  decide
theorem witness_StepKeepsChipInStep :
    Inv (lastByte .wr (writeDatagram 0x21 0x12345678)) ∧ ChipInStep (lastByte .wr (writeDatagram 0x21 0x12345678)) ∧
    step (lastByte .wr (writeDatagram 0x21 0x12345678)) =
      .next (xchgGet (lastByte .wr (writeDatagram 0x21 0x12345678))) :=
  ⟨inv_lastByte_write, chip_lastByte_write, rfl⟩
theorem witness_TransactionDeliversItsDatagram :
    (let s := lastByte .wr (writeDatagram 0x21 0x12345678)
     Inv s ∧ ChipInStep s ∧ s.sre.eng = .get ∧ s.sre.rxne = true ∧ s.sre.k = 4 ∧
       s.sre.tx = writeDatagram 0x21 0x12345678) ∧
    (let s := lastByte .rd2 (readDatagram 0x7F)
     Inv s ∧ ChipInStep s ∧ s.sre.eng = .get ∧ s.sre.rxne = true ∧ s.sre.k = 4 ∧ s.sre.tx = readDatagram 0x7F) :=
  ⟨⟨inv_lastByte_write, chip_lastByte_write, rfl, rfl, rfl, rfl⟩,
   ⟨inv_lastByte_read, chip_lastByte_read, rfl, rfl, rfl, rfl⟩⟩
theorem witness_SreSendsOnlyTheTwoPatterns :
    (let s := lastByte .wr (writeDatagram 0x21 0x12345678)
     Inv s ∧ s.sre.phase = .wr ∧ s.sre.tx = writeDatagram s.sre.addr 0x12345678 ∧ step s = .next (xchgGet s)) :=
  ⟨inv_lastByte_write, rfl, rfl, rfl⟩
theorem witness_PhaseTwoOnlyAfterSettling :
    (let s := engine .settle .rd1 4 true false
     Inv s ∧ s.sre.eng = .settle ∧ step s = .next s ∧ s.inputs.turns.head? ≠ some .nodeReset) :=
  ⟨inv_settle, rfl, rfl, by decide⟩
theorem witness_EndedRunStays : Inv (link 1 3 []) ∧ runEnded (link 1 3 []) = true ∧ (link 1 3 []).inputs.turns = [] :=
  ⟨inv_link_wrapped, by decide⟩
theorem witness_ParametersNeverChange : step State.reset = .next State.reset := rfl
/-- Each of the listed refusals arises. -/
theorem witness_RefusedOnlyInTheListedCases :
    refusalOfOutcome (exec (.linkInit false) (link 0 0 [])) = some .linkReinit ∧
    refusalOfOutcome (exec (.send (frameOf 1)) State.reset) = some .linkNotInitialised ∧
    refusalOfOutcome (exec (.send { frameOf 1 with len := 9 }) (link 0 0 [])) = some .sendLength ∧
    refusalOfOutcome (exec (.txDone 3) (link 0 0 [])) = some .noSuchMailbox ∧
    refusalOfOutcome (exec (.regWrite 0 0) (engine .put .wr 0 true false)) = some .serialBusy := by decide
theorem witness_IndicesAndOccupancyInRange : Inv (link 3 0 [frameOf 8, frameOf 9]) ∧
    ringFull (link 3 0 [frameOf 8, frameOf 9]) = true ∧ ringEmpty (link 3 3 []) = true :=
  ⟨inv_link_full, by decide⟩

end Sys2Proof.Tests
end

section
/-! PROOFS. The parameters of R5 stand in State as `cfg` (log entry 1): no meaning and no step changes them. -/

namespace Sys2Proof.Machine

variable {s t : State}

@[simp] theorem produce_cfg (s : State) : (produce s).cfg = s.cfg := by rw [produce_eq]

@[simp] theorem transmitted_cfg (f : Frame) (s : State) : (transmitted f s).cfg = s.cfg := by
  rcases transmitted_cases f s with ⟨h, -⟩ | ⟨h, -⟩ <;> simp [h]

/-- Each meaning builds its next state by named operations, none of which writes `cfg`. -/
theorem exec_cfg {i : Instr} (h : exec i s = .next t) : t.cfg = s.cfg := by
  cases i with
  | linkInit lb => obtain ⟨-, rfl⟩ := execLinkInit_next h; rfl
  | receive n => obtain ⟨-, rfl⟩ := execReceive_next h; rfl
  | send f => obtain ⟨-, -, ⟨-, rfl⟩ | ⟨j, -, rfl⟩⟩ := execSend_next h <;> rfl
  | regWrite a v => obtain ⟨-, rfl⟩ := execRegWrite_next h; rfl
  | regRead a => obtain ⟨-, rfl⟩ := execRegRead_next h; rfl
  | rxIsr => obtain ⟨-, rfl⟩ | ⟨-, rfl⟩ := execRxIsr_next h <;> simp
  | frameArrival f => obtain rfl := execFrameArrival_next h; simp
  | txDone j => obtain ⟨-, rfl | ⟨m, -, -, rfl⟩⟩ := execTxDone_next h <;> simp
  | spiShift r => obtain ⟨-, rfl⟩ | ⟨-, rfl⟩ := execSpiShift_next h <;> rfl
  | settleElapsed => obtain ⟨-, rfl⟩ | ⟨-, rfl⟩ := execSettleElapsed_next h <;> rfl
  | dgramWrite a v => obtain ⟨-, rfl⟩ := execDgramWrite_next h; rfl
  | dgramRead a => obtain ⟨-, rfl⟩ := execDgramRead_next h; rfl

/-- A node reset keeps the parameters too: its reset values are those for the present ones. -/
theorem step_cfg (h : step s = .next t) : t.cfg = s.cfg := by
  obtain ⟨n, -, c⟩ := step_cases h
  cases c with
  | stay eq => rw [eq]
  | pop _ _ eq => rw [eq, rxPop_cfg]
  | micro eq => rw [eq, sreMicro_cfg]
  | run i m _ _ _ _ eq => rw [exec_cfg eq]
  | reset _ eq => rw [eq, nodeReset_cfg]

/-- Settles O56: the case analysis of a step, with each meaning's frame for the parameters. -/
theorem parametersNeverChange : Obligations.ParametersNeverChange := fun _ _ => step_cfg

end Sys2Proof.Machine
end

section
/-! PROOFS. What an instruction can do to the receive unit, and the rules about one owner for each of its elements
(R28, R44, R47, R133) that follow from it. -/

namespace Sys2Proof.Machine

variable {s t : State}

/-! ### The frames of the receive unit's shared operations -/

@[simp] theorem arrive_slots (f : Frame) (s : State) : (arrive f s).rxu.slots = s.rxu.slots := by rw [arrive_eq]
@[simp] theorem arrive_head (f : Frame) (s : State) : (arrive f s).rxu.head = s.rxu.head := by rw [arrive_eq]
@[simp] theorem arrive_tail (f : Frame) (s : State) : (arrive f s).rxu.tail = s.rxu.tail := by rw [arrive_eq]
@[simp] theorem arrive_linkUp (f : Frame) (s : State) : (arrive f s).rxu.linkUp = s.rxu.linkUp := by rw [arrive_eq]
@[simp] theorem arrive_rxBusy (f : Frame) (s : State) : (arrive f s).rxu.rxBusy = s.rxu.rxBusy := by rw [arrive_eq]
@[simp] theorem arrive_loopback (f : Frame) (s : State) : (arrive f s).rxu.loopback = s.rxu.loopback := by
  rw [arrive_eq]

/-- Whether a frame is accepted does not depend on the mailboxes. -/
theorem arrive_freeMailboxAt (f : Frame) (i : Nat) (s : State) :
    arrive f (freeMailboxAt i s) = freeMailboxAt i (arrive f s) := by
  unfold arrive
  simp only [freeMailboxAt_rxu, show stageFull (freeMailboxAt i s) = stageFull s from rfl]
  split
  · rfl
  · split <;> rfl

@[simp] theorem produce_tail (s : State) : (produce s).rxu.tail = s.rxu.tail := by
  rcases produce_cases s with ⟨h, -⟩ | ⟨f, q, -, -, h⟩ | ⟨f, q, -, -, h⟩ <;> rw [h]

@[simp] theorem produce_linkUp (s : State) : (produce s).rxu.linkUp = s.rxu.linkUp := by
  rcases produce_cases s with ⟨h, -⟩ | ⟨f, q, -, -, h⟩ | ⟨f, q, -, -, h⟩ <;> rw [h]

@[simp] theorem produce_loopback (s : State) : (produce s).rxu.loopback = s.rxu.loopback := by
  rcases produce_cases s with ⟨h, -⟩ | ⟨f, q, -, -, h⟩ | ⟨f, q, -, -, h⟩ <;> rw [h]

@[simp] theorem produce_rxBusy (s : State) : (produce s).rxu.rxBusy = s.rxu.rxBusy := by
  rcases produce_cases s with ⟨h, -⟩ | ⟨f, q, -, -, h⟩ | ⟨f, q, -, -, h⟩ <;> rw [h]

/-- The drain touches the RXU and the returned result, and nothing else. -/
theorem rxPop_eq (s : State) : rxPop s = { s with rxu := (rxPop s).rxu, ret := (rxPop s).ret } := by
  rcases rxPop_cases s with ⟨h, -⟩ | ⟨h, -⟩ | ⟨h, -⟩ <;> rw [h] <;> rfl

@[simp] theorem rxPop_slots (s : State) : (rxPop s).rxu.slots = s.rxu.slots := by
  rcases rxPop_cases s with ⟨h, -⟩ | ⟨h, -⟩ | ⟨h, -⟩ <;> simp [h]

@[simp] theorem rxPop_head (s : State) : (rxPop s).rxu.head = s.rxu.head := by
  rcases rxPop_cases s with ⟨h, -⟩ | ⟨h, -⟩ | ⟨h, -⟩ <;> simp [h]

@[simp] theorem rxPop_linkUp (s : State) : (rxPop s).rxu.linkUp = s.rxu.linkUp := by
  rcases rxPop_cases s with ⟨h, -⟩ | ⟨h, -⟩ | ⟨h, -⟩ <;> simp [h]

@[simp] theorem rxPop_loopback (s : State) : (rxPop s).rxu.loopback = s.rxu.loopback := by
  rcases rxPop_cases s with ⟨h, -⟩ | ⟨h, -⟩ | ⟨h, -⟩ <;> simp [h]

/-! ### The inversion lemma -/

/-- Everything an instruction can do to the receive unit. -/
inductive RxuCase (i : Instr) (s t : State) : Prop where
  | same (eq : t.rxu = s.rxu)
  | linkInit (lb : Bool) (instr : i = .linkInit lb) (down : s.rxu.linkUp = false)
      (eq : t.rxu = { s.rxu with loopback := lb, head := 0, tail := 0, linkUp := true })
  | receive (n : BitVec 16) (instr : i = .receive n) (up : s.rxu.linkUp = true)
      (eq : t.rxu = { s.rxu with rxOut := [], rxLeft := n, rxBusy := true })
  | isr (instr : i = .rxIsr) (eq : t.rxu = (produce s).rxu)
  | arrival (f : Frame) (eq : t.rxu = (arrive f s).rxu)

/-- Only four instructions and the loopback delivery of TX_DONE reach the receive unit. -/
theorem exec_rxuCase {i : Instr} (h : exec i s = .next t) : RxuCase i s t := by
  cases i with
  | linkInit lb => obtain ⟨down, rfl⟩ := execLinkInit_next h; exact .linkInit lb rfl down rfl
  | receive n => obtain ⟨up, rfl⟩ := execReceive_next h; exact .receive n rfl up rfl
  | send f => obtain ⟨-, -, ⟨-, rfl⟩ | ⟨j, -, rfl⟩⟩ := execSend_next h <;> exact .same rfl
  | regWrite a v => obtain ⟨-, rfl⟩ := execRegWrite_next h; exact .same rfl
  | regRead a => obtain ⟨-, rfl⟩ := execRegRead_next h; exact .same rfl
  | rxIsr =>
    obtain ⟨-, rfl⟩ | ⟨-, rfl⟩ := execRxIsr_next h
    · exact .same rfl
    · exact .isr rfl rfl
  | frameArrival f => obtain rfl := execFrameArrival_next h; exact .arrival f rfl
  | txDone j =>
    obtain ⟨-, rfl | ⟨m, -, -, rfl⟩⟩ := execTxDone_next h
    · exact .same rfl
    · obtain ⟨e, -⟩ | ⟨e, -⟩ := transmitted_cases m.frame (freeMailboxAt j.toNat s)
      · exact .same (by rw [e, freeMailboxAt_rxu])
      · exact .arrival m.frame (by rw [e, arrive_freeMailboxAt, freeMailboxAt_rxu])
  | spiShift r => obtain ⟨-, rfl⟩ | ⟨-, rfl⟩ := execSpiShift_next h <;> exact .same rfl
  | settleElapsed => obtain ⟨-, rfl⟩ | ⟨-, rfl⟩ := execSettleElapsed_next h <;> exact .same rfl
  | dgramWrite a v => obtain ⟨-, rfl⟩ := execDgramWrite_next h; exact .same rfl
  | dgramRead a => obtain ⟨-, rfl⟩ := execDgramRead_next h; exact .same rfl

/-! ### One writer for each element -/

/-- Settles O27: of the cases of `RxuCase`, the producer alone writes slots, it and LINK_INIT `head`, LINK_INIT alone
`tail`; the micro-steps by their frames. -/
theorem singleWriter : Obligations.SingleWriter := by
  refine ⟨fun i s t h => ?_, fun s => ⟨rxPop_head s, rxPop_slots s, sreMicro_rxu⟩⟩
  cases exec_rxuCase h with
  | same eq => simp [eq]
  | linkInit lb instr down eq => simp [eq, instr]
  | receive n instr up eq => simp [eq]
  | isr instr eq => simp [eq, instr]
  | arrival f eq => simp [eq]

/-! ### The link configuration -/

/-- LINK_INIT alone writes the link flag and the loopback flag, and needs the link down. -/
theorem exec_linkConfig {i : Instr} (h : exec i s = .next t) (hup : s.rxu.linkUp = true) :
    t.rxu.linkUp = true ∧ t.rxu.loopback = s.rxu.loopback := by
  cases exec_rxuCase h with
  | same eq => simp [eq, hup]
  | linkInit lb instr down eq => simp [hup] at down
  | receive n instr up eq => simp [eq, hup]
  | isr instr eq => simp [eq, hup]
  | arrival f eq => simp [eq, hup]

/-- Settles O29: the case analysis of a step; the micro-steps write neither flag, and an instruction neither while the
link is up. -/
theorem linkStaysConfigured : Obligations.LinkStaysConfigured := by
  intro s t h hup hturn
  obtain ⟨n, -, c⟩ := step_cases h
  cases c with
  | stay eq => simp [eq, hup]
  | pop ready busy eq => simp [eq, hup]
  | micro eq => simp [eq, hup]
  | run i m turn ready free mark eq =>
    exact exec_linkConfig (s := { s with inputs := n, mainStepped := m }) eq hup
  | reset turn eq => exact absurd turn hturn

/-! ### The interrupt request -/

theorem irqRx_iff (s : State) : irqRx s = true ↔ s.rxu.linkUp = true ∧ 0 < s.rxu.hwq.length := by
  simp [irqRx, List.length_pos_iff]

theorem rxIsrEnabled_eq_false (h : irqRx s = false ∨ s.rxu.inIsr = true) : rxIsrEnabled s = false := by
  rcases h with h | h <;> simp [rxIsrEnabled, h]

/-- Settles O20: RX_ISR's enabling condition is the request outside the ISR. -/
theorem rxIsrOnlyWhenRequested : Obligations.RxIsrOnlyWhenRequested := fun s =>
  ⟨irqRx_iff s, fun h => by simp [exec, execRxIsr, rxIsrEnabled_eq_false h]⟩

end Sys2Proof.Machine
end

section
/-! PROOFS. The machine's invariant: each operation keeps the part of it that it writes, so every step keeps the whole;
and what it says of the ring's indices (R23 to R26, R131). -/

namespace Sys2Proof.Machine

variable {s t : State}

/-! ### The receive unit -/

theorem RxuInv.reset {p : Params} (hp : p.Legal) : RxuInv p (Rxu.reset p) where
  slots_length := List.length_replicate
  head_lt := Nat.zero_lt_of_lt hp.1
  tail_lt := Nat.zero_lt_of_lt hp.1
  stage_le := Nat.zero_le _
  down_staged _ := rfl
  down_idle _ := rfl
  not_in_isr := rfl
  storage_le h := by cases h

/-- LINK_INIT leaves the ring empty and the link up (R120). -/
theorem RxuInv.linkInit {p : Params} {r : Rxu} (h : RxuInv p r) (lb : Bool) :
    RxuInv p { r with loopback := lb, head := 0, tail := 0, linkUp := true } where
  __ := h
  head_lt := Nat.zero_lt_of_lt h.head_lt
  tail_lt := Nat.zero_lt_of_lt h.head_lt
  down_staged := nofun
  down_idle := nofun

/-- RECEIVE starts with empty storage and the link up (R127). -/
theorem RxuInv.receive {p : Params} {r : Rxu} (h : RxuInv p r) (up : r.linkUp = true) (n : BitVec 16) :
    RxuInv p { r with rxOut := [], rxLeft := n, rxBusy := true } where
  __ := h
  down_idle down := by simp [up] at down
  storage_le _ := by simpa using n.isLt

/-- A frame is queued only with the link up and room in the stage (R122). -/
theorem RxuInv.arrive (h : RxuInv s.cfg s.rxu) (f : Frame) : RxuInv s.cfg (arrive f s).rxu := by
  obtain ⟨e, -⟩ | ⟨e, up, room⟩ := arrive_cases f s
  · rw [e]; exact h
  · have hlt : s.rxu.hwq.length < s.cfg.hwRxDepth :=
      Nat.lt_of_le_of_ne h.stage_le (by simpa [stageFull] using room)
    rw [e]
    exact { h with
      stage_le := by simpa using hlt
      down_staged := fun down => by simp [up] at down }

/-- The producer shortens the stage; a store keeps the number of slots and advances `head` within its range (R125). -/
theorem RxuInv.produce (h : RxuInv s.cfg s.rxu) : RxuInv s.cfg (produce s).rxu := by
  obtain ⟨e, -⟩ | ⟨f, q, hq, -, e⟩ | ⟨f, q, hq, -, e⟩ := produce_cases s
  · rw [e]; exact h
  all_goals
    have stage : q.length ≤ s.cfg.hwRxDepth := by have := h.stage_le; simp [hq] at this; omega
    have down (hd : s.rxu.linkUp = false) : q = [] := by simp [h.down_staged hd] at hq
    rw [e]
  · exact { h with stage_le := stage, down_staged := down }
  · exact { h with
      stage_le := stage
      down_staged := down
      slots_length := by simpa using h.slots_length
      head_lt := nextIndex_lt (Nat.zero_lt_of_lt h.head_lt) }

/-- A copy moves one frame's worth of the count left into the storage used (R128). -/
theorem RxuInv.rxPop (h : RxuInv s.cfg s.rxu) : RxuInv s.cfg (rxPop s).rxu := by
  obtain ⟨e, -⟩ | ⟨e, -, -⟩ | ⟨e, busy, left, -⟩ := rxPop_cases s
  · rw [e]; exact h
  · rw [e]
    exact { h with down_idle := fun _ => rfl, storage_le := nofun }
  · have storage := h.storage_le busy
    have left_pos : s.rxu.rxLeft.toNat ≠ 0 := by bv_omega
    rw [e]
    exact { h with
      tail_lt := nextIndex_lt (Nat.zero_lt_of_lt h.head_lt)
      storage_le := fun _ => by simp; omega }

/-! ### The serial engine -/

/-- A transaction starts, for a blocked caller, from an engine with `txe` set and `rxne` clear (R194). -/
theorem SreInv.start {e : Sre} (txe : e.txe = true) (rxne : e.rxne = false) (caller : e.callerWaiting = true)
    (ph : SrePhase) (b : DatagramBytes) :
    SreInv { e with phase := ph, tx := b, k := 0, cs := true, eng := .put } := ⟨rfl, txe, rxne, caller⟩

theorem SreInv.of_idle {e : Sre} (h : SreInv e) (he : e.eng = .idle) :
    e.cs = false ∧ e.txe = true ∧ e.rxne = false ∧ e.callerWaiting = false := by simpa [SreInv, he] using h

theorem SreInv.of_settle {e : Sre} (h : SreInv e) (he : e.eng = .settle) :
    e.cs = false ∧ e.txe = true ∧ e.rxne = false ∧ e.callerWaiting = true ∧ e.phase = .rd1 := by
  simpa [SreInv, he] using h

theorem SreInv.of_put {e : Sre} (h : SreInv e) (he : e.eng = .put) :
    e.cs = true ∧ e.txe = true ∧ e.rxne = false ∧ e.callerWaiting = true := by simpa [SreInv, he] using h

theorem SreInv.of_get {e : Sre} (h : SreInv e) (he : e.eng = .get) :
    e.cs = true ∧ e.txe = e.rxne ∧ e.callerWaiting = true := by simpa [SreInv, he] using h

/-- MAIN is blocked exactly while the engine is not IDLE (R38). -/
theorem SreInv.callerWaiting_eq_false_iff {e : Sre} (h : SreInv e) : e.callerWaiting = false ↔ e.eng = .idle := by
  unfold SreInv at h
  split at h <;> simp_all

/-- A byte is shifted only in GET, before its reply (R192, R201; log entry 21). -/
theorem SreInv.eng_of_shiftEnabled (h : SreInv s.sre) (he : shiftEnabled s = true) : s.sre.eng = .get := by
  simp only [shiftEnabled, Bool.and_eq_true, Bool.not_eq_true'] at he
  obtain ⟨⟨cs, txe⟩, -⟩ := he
  unfold SreInv at h
  split at h <;> simp_all

theorem SreInv.shiftByte (h : SreInv s.sre) (he : s.sre.eng = .get) (r : Byte) : SreInv (shiftByte r s).sre := by
  obtain ⟨cs, -, caller⟩ := h.of_get he
  simp [SreInv, he, cs, caller]

theorem SreInv.xchgPut (h : SreInv s.sre) : SreInv (xchgPut s).sre := by
  obtain ⟨e, -⟩ | ⟨e, eng, -⟩ := xchgPut_cases s
  · rw [e]; exact h
  · obtain ⟨cs, -, rxne, caller⟩ := h.of_put eng
    simp [e, SreInv, cs, rxne, caller]

/-- With the last reply taken, each phase's end leaves the engine as IDLE or SETTLE wants it (R196, R198, R200). -/
theorem SreInv.endTransaction (txe : s.sre.txe = true) (rxne : s.sre.rxne = false)
    (caller : s.sre.callerWaiting = true) : SreInv (endTransaction s).sre := by
  obtain ⟨-, e⟩ | ⟨ph, e⟩ | ⟨-, e⟩ := endTransaction_cases s
  · simp [e, SreInv, txe, rxne]
  · simp [e, SreInv, txe, rxne, caller, ph]
  · simp [e, SreInv, txe, rxne]

theorem SreInv.xchgGet (h : SreInv s.sre) : SreInv (xchgGet s).sre := by
  obtain ⟨e, -⟩ | ⟨eng, rxne, -, e⟩ | ⟨eng, rxne, -, e⟩ := xchgGet_cases s
  · rw [e]; exact h
  all_goals
    obtain ⟨cs, txe, caller⟩ := h.of_get eng
    rw [rxne] at txe
    rw [e]
  · exact ⟨cs, txe, rfl, caller⟩
  · exact .endTransaction txe rfl caller

theorem SreInv.sreMicro (h : SreInv s.sre) : SreInv (sreMicro s).sre := by
  obtain e | ⟨-, -, e⟩ | ⟨-, -, e⟩ := sreMicro_cases s <;> rw [e]
  · exact h
  · exact h.xchgPut
  · exact h.xchgGet

/-- In IDLE the SRE has no micro-step (R201). -/
theorem sreMicro_of_idle (he : s.sre.eng = .idle) : sreMicro s = s := by
  obtain e | ⟨-, eng, -⟩ | ⟨-, eng, -⟩ := sreMicro_cases s
  · exact e
  all_goals simp [he] at eng

/-! ### The whole machine -/

theorem Inv.reset {p : Params} (hp : p.Legal) : Inv (State.resetWith p) where
  legal := hp
  rxu := .reset hp
  txu := List.length_replicate
  sre := ⟨rfl, rfl, rfl, rfl⟩
  one_operation := nofun
  not_started _ := ⟨rfl, rfl, fun m hm => by rw [List.eq_of_mem_replicate hm]⟩

/-- The state in which agent `a`'s instruction runs: the inputs moved on, and MAIN's step recorded. -/
def beforeRun (a : Agent) (n : Inputs) (s : State) : State :=
  { s with inputs := n, mainStepped := s.mainStepped || a == .main }

theorem holds_beforeRun (a : Agent) (n : Inputs) (s : State) : holds a (beforeRun a n s) = holds a s := by
  cases a with
  | sre => simp [holds, beforeRun, show (Agent.sre == .main) = false from rfl]
  | main | isr | bus | serialEnv | chip => rfl

theorem inMicroSteps_beforeRun (a : Agent) (n : Inputs) (s : State) :
    inMicroSteps a (beforeRun a n s) = inMicroSteps a s := by
  cases a <;> rfl

/-- The invariant does not speak of the inputs, and MAIN's first step only frees it of a clause. -/
theorem Inv.beforeRun (h : Inv s) (a : Agent) (n : Inputs) : Inv (beforeRun a n s) :=
  { h with not_started := fun hs => h.not_started (Bool.or_eq_false_iff.mp hs).1 }

/-- A change of the receive unit that leaves the link flag alone. -/
theorem Inv.of_rxu (h : Inv s) {r : Rxu} {v : Option CallResult} (hr : RxuInv s.cfg r)
    (link : r.linkUp = s.rxu.linkUp) (busy : r.rxBusy = true → s.sre.callerWaiting = false) :
    Inv { s with rxu := r, ret := v } :=
  { h with
    rxu := hr
    one_operation := busy
    not_started := fun hs => by simpa [link] using h.not_started hs }

/-- A change of the mailboxes that keeps their number, and that MAIN has made or that leaves none newly busy. -/
theorem Inv.of_txu (h : Inv s) {x : Txu} {v : Option CallResult} (hx : TxuInv s.cfg x)
    (free : s.mainStepped = false → ∀ m ∈ x.mailboxes, m.busy = false) : Inv { s with txu := x, ret := v } :=
  { h with
    txu := hx
    not_started := fun hs => have ⟨down, idle, _⟩ := h.not_started hs; ⟨down, idle, free hs⟩ }

/-- A change of the engine and the chip, outside a drain if a caller is blocked after it. -/
theorem Inv.of_sre (h : Inv s) {e : Sre} {c : Chip} {v : Option CallResult} {d : Nat} (he : SreInv e)
    (caller : s.rxu.rxBusy = true → e.callerWaiting = false) (idle : s.mainStepped = false → e.eng = .idle) :
    Inv { s with sre := e, chip := c, ret := v, draws := d } :=
  { h with
    sre := he
    one_operation := caller
    not_started := fun hs => have ⟨down, _, boxes⟩ := h.not_started hs; ⟨down, idle hs, boxes⟩ }

theorem Inv.arrive (h : Inv s) (f : Frame) : Inv (arrive f s) := by
  have frame : Machine.arrive f s = { s with rxu := (Machine.arrive f s).rxu } := by rw [arrive_eq]
  rw [frame]
  exact h.of_rxu (h.rxu.arrive f) (arrive_linkUp f s) fun busy => h.one_operation (by simpa using busy)

theorem Inv.produce (h : Inv s) : Inv (produce s) := by
  rw [produce_eq]
  exact h.of_rxu h.rxu.produce (produce_linkUp s) fun busy => h.one_operation (by simpa using busy)

theorem Inv.rxPop (h : Inv s) (busy : s.rxu.rxBusy = true) : Inv (rxPop s) := by
  rw [rxPop_eq]
  exact h.of_rxu h.rxu.rxPop (rxPop_linkUp s) fun _ => h.one_operation busy

/-- With no caller blocked, or before MAIN's first step, the engine is IDLE and the micro-step is none. -/
theorem Inv.sreMicro (h : Inv s) : Inv (sreMicro s) := by
  by_cases idle : s.sre.eng = .idle
  · rwa [sreMicro_of_idle idle]
  · rw [sreMicro_eq]
    refine h.of_sre h.sre.sreMicro (fun busy => ?_) fun hs => ?_
    · exact absurd (h.sre.callerWaiting_eq_false_iff.mp (h.one_operation busy)) idle
    · exact absurd (h.not_started hs).2.1 idle

/-- A busy mailbox has been loaded by MAIN. -/
theorem Inv.mainStepped_of_busy (h : Inv s) {m : Mailbox} (hm : m ∈ s.txu.mailboxes) (busy : m.busy = true) :
    s.mainStepped = true := by
  by_contra hs
  obtain ⟨-, -, free⟩ := h.not_started (by simpa using hs)
  simp [free m hm] at busy

/-- An engine that is not IDLE has been started by MAIN. -/
theorem Inv.mainStepped_of_eng (h : Inv s) (eng : s.sre.eng ≠ .idle) : s.mainStepped = true := by
  by_contra hs
  obtain ⟨-, idle, -⟩ := h.not_started (by simpa using hs)
  exact eng idle

/-- A mailbox is freed and its frame, in loopback, arrives (R164, R165). -/
theorem Inv.txDone (h : Inv s) {i : Nat} {m : Mailbox} (hm : s.txu.mailboxes[i]? = some m) (busy : m.busy = true) :
    Inv (transmitted m.frame (freeMailboxAt i s)) := by
  have freed : Inv (freeMailboxAt i s) :=
    h.of_txu (by simpa [TxuInv] using h.txu) fun hs => by
      simp [h.mainStepped_of_busy (List.mem_of_getElem? hm) busy] at hs
  obtain ⟨e, -⟩ | ⟨e, -⟩ := transmitted_cases m.frame (freeMailboxAt i s) <;> rw [e]
  · exact freed
  · exact freed.arrive m.frame

/-- A register operation starts from an IDLE engine, outside a drain (R190, R195, R197). -/
theorem Inv.startRegisterOp (h : Inv s) (idle : s.sre.eng = .idle) (free : s.rxu.rxBusy = false)
    (started : s.mainStepped = true) (ph : SrePhase) (b : DatagramBytes) (a : ChipAddr) :
    Inv (startTransaction ph b (latchCaller a s)) := by
  obtain ⟨-, txe, rxne, -⟩ := h.sre.of_idle idle
  exact h.of_sre (.start (e := (latchCaller a s).sre) txe rxne rfl ph b) (fun busy => by simp [free] at busy)
    fun hs => by simp [started] at hs

/-- The second transaction of a read starts with the caller still blocked (R199). -/
theorem Inv.startPhaseTwo (h : Inv s) (settle : s.sre.eng = .settle) (ph : SrePhase) (b : DatagramBytes) :
    Inv (startTransaction ph b s) := by
  obtain ⟨-, txe, rxne, caller, -⟩ := h.sre.of_settle settle
  exact h.of_sre (.start txe rxne caller ph b) h.one_operation
    fun hs => by simp [h.mainStepped_of_eng (by simp [settle])] at hs

theorem Inv.shiftByte (h : Inv s) (enabled : shiftEnabled s = true) (r : Byte) : Inv (shiftByte r s) := by
  have eng := h.sre.eng_of_shiftEnabled enabled
  exact h.of_sre (h.sre.shiftByte eng r) h.one_operation fun hs => (h.not_started hs).2.1

/-- A lone datagram leaves the engine IDLE with the flags of IDLE (log entry 11). -/
theorem Inv.wholeTransaction (h : Inv s) (idle : s.sre.eng = .idle) (b q : DatagramBytes) :
    Inv (wholeTransaction b q s) := by
  obtain ⟨-, -, -, caller⟩ := h.sre.of_idle idle
  exact h.of_sre (by simp [SreInv, idle, caller]) h.one_operation fun _ => idle

/-- An instruction keeps the invariant when its issuer is free to offer it, and MAIN's first step is past if MAIN is
the issuer. -/
theorem exec_inv {i : Instr} (h : exec i s = .next t) (hi : Inv s) (ready : holds i.issuer s = false)
    (free : inMicroSteps i.issuer s = false) (started : i.issuer = .main → s.mainStepped = true) : Inv t := by
  cases i with
  | linkInit lb =>
    obtain ⟨-, rfl⟩ := execLinkInit_next h
    exact { hi with
      rxu := hi.rxu.linkInit lb
      txu := by simpa [TxuInv] using hi.txu
      not_started := fun hs => by simp [started rfl] at hs }
  | receive n =>
    obtain ⟨up, rfl⟩ := execReceive_next h
    have caller : s.sre.callerWaiting = false := (Bool.or_eq_false_iff.mp ready).2
    exact hi.of_rxu (hi.rxu.receive up n) rfl fun _ => caller
  | send f =>
    obtain ⟨-, -, ⟨-, rfl⟩ | ⟨j, -, rfl⟩⟩ := execSend_next h
    · exact { hi with }
    · exact hi.of_txu (by simpa [TxuInv] using hi.txu) fun hs => by simp [started rfl] at hs
  | regWrite a v =>
    obtain ⟨idle, rfl⟩ := execRegWrite_next h
    exact hi.startRegisterOp idle free (started rfl) ..
  | regRead a =>
    obtain ⟨idle, rfl⟩ := execRegRead_next h
    exact hi.startRegisterOp idle free (started rfl) ..
  | rxIsr =>
    obtain ⟨-, rfl⟩ | ⟨-, rfl⟩ := execRxIsr_next h
    · exact hi
    · exact hi.produce
  | frameArrival f => obtain rfl := execFrameArrival_next h; exact hi.arrive f
  | txDone j =>
    obtain ⟨-, rfl | ⟨m, hm, busy, rfl⟩⟩ := execTxDone_next h
    · exact hi
    · exact hi.txDone hm busy
  | spiShift r =>
    obtain ⟨-, rfl⟩ | ⟨enabled, rfl⟩ := execSpiShift_next h
    · exact hi
    · exact hi.shiftByte enabled r
  | settleElapsed =>
    obtain ⟨-, rfl⟩ | ⟨settle, rfl⟩ := execSettleElapsed_next h
    · exact hi
    · exact hi.startPhaseTwo settle ..
  | dgramWrite a v => obtain ⟨idle, rfl⟩ := execDgramWrite_next h; exact hi.wholeTransaction idle ..
  | dgramRead a => obtain ⟨idle, rfl⟩ := execDgramRead_next h; exact hi.wholeTransaction idle ..

/-- Settles O49: the case analysis of a step, with one lemma for each operation a step can be. -/
theorem stepKeepsInv : Obligations.StepKeepsInv := by
  intro s t hi h
  obtain ⟨n, -, c⟩ := step_cases h
  have hn : Inv { s with inputs := n } := { hi with }
  cases c with
  | stay eq => rwa [eq]
  | pop ready busy eq => rw [eq]; exact hn.rxPop busy
  | micro eq => rw [eq]; exact hn.sreMicro
  | run i m turn ready free mark eq =>
    subst mark
    have main_marked (main : i.issuer = .main) : (beforeRun i.issuer n s).mainStepped = true := by
      simp [beforeRun, main]
    exact exec_inv eq (hi.beforeRun i.issuer n) ((holds_beforeRun ..).trans ready)
      ((inMicroSteps_beforeRun ..).trans free) main_marked
  | reset turn eq =>
    rw [eq]
    exact { Inv.reset hi.legal with }

/-! ### The ring's indices -/

/-- Settles O59: an index word of `IDX_W` bits counts `RING_N` slots, and an occupancy is a remainder of `RING_N` that
full keeps from its last value. -/
theorem indicesAndOccupancyInRange : Obligations.IndicesAndOccupancyInRange := by
  intro s h
  have width : s.cfg.ringN ≤ 2 ^ s.cfg.idxW := Nat.le_pow_clog (by decide) _
  have head_lt := h.rxu.head_lt
  have tail_lt := h.rxu.tail_lt
  have occ_lt : occupancy s < s.cfg.ringN := Nat.mod_lt _ (Nat.zero_lt_of_lt head_lt)
  refine ⟨by omega, by omega, Nat.le_pred_of_lt occ_lt, ?_, ?_⟩
  · rw [← ringEmpty_iff head_lt tail_lt, ringEmpty, beq_iff_eq, eq_comm]
  · rw [ringFull_iff head_lt tail_lt h.legal.1]
    omega

end Sys2Proof.Machine
end

section
/-! PROOFS. What a step does to the frames in the receive stage, in the ring and in the drain's storage (R73, R74,
R132): one lemma for each way a frame moves, and the case analysis of a step over them. -/

namespace Sys2Proof.Machine

variable {s t : State}

/-! ### The ring's frames -/

/-- Equal indices are an empty ring, whatever the slots hold (R24). -/
theorem ringFrames_eq_nil (h : s.rxu.head = s.rxu.tail) : ringFrames s = [] := by
  simp [ringFrames, occupancy, h]

theorem occupancy_of_full (h : RxuInv s.cfg s.rxu) (legal : s.cfg.Legal) (full : ringFull s = true) :
    occupancy s = s.cfg.ringN - 1 := by
  have := (ringFull_iff h.head_lt h.tail_lt legal.1).mp full
  omega

theorem occupancy_of_not_full (h : RxuInv s.cfg s.rxu) (legal : s.cfg.Legal) (room : ringFull s = false) :
    occupancy s < s.cfg.ringN - 1 := by
  have not_last : occupancy s + 1 ≠ s.cfg.ringN := fun last => by
    simp [(ringFull_iff h.head_lt h.tail_lt legal.1).mpr last] at room
  have occ_lt : occupancy s < s.cfg.ringN := Nat.mod_lt _ (Nat.zero_lt_of_lt h.head_lt)
  omega

/-- The receive stage and the drain's own registers are no part of the ring (R26). -/
theorem ringFrames_of_same_ring {q out : List Frame} {busy : Bool} {left : BitVec 16} (cfg : t.cfg = s.cfg)
    (rxu : t.rxu = { s.rxu with hwq := q, rxBusy := busy, rxLeft := left, rxOut := out }) :
    ringFrames t = ringFrames s :=
  ringFrames_congr cfg (by rw [rxu]) (by rw [rxu]) (by rw [rxu])

/-! ### One lemma for each way frames move -/

/-- Nothing moves: the receive unit is unchanged, or a drain ends and its frames stay in the storage (R129). -/
theorem FrameFlow.of_still {b : Bool} (cfg : t.cfg = s.cfg) (rxu : t.rxu = { s.rxu with rxBusy := b }) :
    FrameFlow s t :=
  .still (ringFrames_of_same_ring cfg rxu) (by rw [rxu]) (by rw [rxu])

/-- An accepted arrival: the stage was not full (R122). -/
theorem FrameFlow.of_queue {f : Frame} (h : RxuInv s.cfg s.rxu) (cfg : t.cfg = s.cfg) (up : s.rxu.linkUp = true)
    (room : stageFull s = false) (rxu : t.rxu = { s.rxu with hwq := s.rxu.hwq ++ [f] }) : FrameFlow s t :=
  .arrived f (ringFrames_of_same_ring cfg rxu) (by rw [rxu])
    (Nat.lt_of_le_of_ne h.stage_le (by simpa [stageFull] using room)) up (by rw [rxu])

/-- The producer's store into a ring with room (R125). -/
theorem FrameFlow.of_store {f : Frame} {q : List Frame} (h : RxuInv s.cfg s.rxu) (legal : s.cfg.Legal)
    (cfg : t.cfg = s.cfg) (stage : s.rxu.hwq = f :: q) (room : ringFull s = false)
    (rxu : t.rxu = { s.rxu with
      slots := s.rxu.slots.set s.rxu.head f, head := nextIndex s s.rxu.head, hwq := q }) : FrameFlow s t :=
  .stored f
    (ringFrames_store f h.slots_length h.head_lt h.tail_lt room cfg (by rw [rxu]) (by rw [rxu]) (by rw [rxu]))
    (by rw [rxu, stage]) (occupancy_of_not_full h legal room) (by rw [rxu])

/-- The producer's drop at a full ring (R126). -/
theorem FrameFlow.of_drop {f : Frame} {q : List Frame} (h : RxuInv s.cfg s.rxu) (legal : s.cfg.Legal)
    (cfg : t.cfg = s.cfg) (stage : s.rxu.hwq = f :: q) (full : ringFull s = true)
    (rxu : t.rxu = { s.rxu with hwq := q }) : FrameFlow s t :=
  .dropped f (ringFrames_of_same_ring cfg rxu) (by rw [rxu, stage])
    (occupancy_of_full h legal full) (by rw [rxu])

/-- The drain's copy out of a ring that is not empty (R128). -/
theorem FrameFlow.of_take (h : RxuInv s.cfg s.rxu) (cfg : t.cfg = s.cfg) (more : s.rxu.tail ≠ s.rxu.head)
    (rxu : t.rxu = (takeFrame s).rxu) : FrameFlow s t :=
  .delivered (slotAt s s.rxu.tail)
    (ringFrames_take h.head_lt h.tail_lt more cfg (by rw [rxu, takeFrame_rxu]) (by rw [rxu, takeFrame_rxu])
      (by rw [rxu, takeFrame_rxu]))
    (by rw [rxu, takeFrame_rxu]) (by rw [rxu, takeFrame_rxu])

/-! ### The step -/

/-- An RX_POP micro-step moves no frame or delivers the oldest one. -/
theorem rxPop_frameFlow (h : RxuInv s.cfg s.rxu) (n : Inputs) : FrameFlow s (rxPop { s with inputs := n }) := by
  have cfg : (rxPop { s with inputs := n }).cfg = s.cfg := rxPop_cfg
  obtain ⟨e, -⟩ | ⟨e, -, -⟩ | ⟨e, -, -, more⟩ := rxPop_cases { s with inputs := n }
  · exact .of_still cfg (by rw [e])
  · exact .of_still cfg (by rw [e, endReceive_rxu])
  · exact .of_take h cfg more (by rw [e]; rfl)

/-- An instruction moves frames by the case of `RxuCase` it is; RECEIVE meets no drain in progress, since MAIN is free
to offer it. -/
theorem exec_frameFlow {i : Instr} {n : Inputs} (run : exec i (beforeRun i.issuer n s) = .next t)
    (h : RxuInv s.cfg s.rxu) (legal : s.cfg.Legal) (free : inMicroSteps i.issuer s = false) : FrameFlow s t := by
  have cfg : t.cfg = s.cfg := exec_cfg (s := beforeRun i.issuer n s) run
  cases exec_rxuCase run with
  | same eq => exact .of_still cfg eq
  | linkInit lb instr down eq =>
    exact .initialised down (by rw [eq]) (ringFrames_eq_nil (by rw [eq])) (by rw [eq]; rfl) (by rw [eq]; rfl)
  | receive m instr up eq =>
    subst instr
    exact .restarted free (by rw [eq]) up (ringFrames_of_same_ring cfg eq) (by rw [eq]; rfl) (by rw [eq])
  | isr instr eq =>
    obtain ⟨e, -⟩ | ⟨f, q, stage, full, e⟩ | ⟨f, q, stage, room, e⟩ := produce_cases (beforeRun i.issuer n s) <;>
      rw [e] at eq
    · exact .of_still cfg eq
    · exact .of_drop h legal cfg stage full eq
    · exact .of_store h legal cfg stage room eq
  | arrival f eq =>
    obtain ⟨e, -⟩ | ⟨e, up, room⟩ := arrive_cases f (beforeRun i.issuer n s) <;> rw [e] at eq
    · exact .of_still cfg eq
    · exact .of_queue h cfg up room eq

/-- Settles O26: the case analysis of a step; the drain and the instructions move frames, a hold and the SRE's
micro-steps none, and a node reset loses all. -/
theorem stepMovesFramesInOrder : Obligations.StepMovesFramesInOrder := by
  intro s t hi h
  obtain ⟨n, -, c⟩ := step_cases h
  cases c with
  | stay eq => rw [eq]; exact .of_still rfl rfl
  | pop ready busy eq => rw [eq]; exact rxPop_frameFlow hi.rxu n
  | micro eq => rw [eq]; exact .of_still sreMicro_cfg sreMicro_rxu
  | run i m turn ready free mark eq =>
    subst mark
    exact exec_frameFlow eq hi.rxu hi.legal free
  | reset turn eq => rw [eq]; exact .restart turn (ringFrames_eq_nil rfl) rfl rfl

end Sys2Proof.Machine
end

section
/-! PROOFS. The turn of an agent that is free to offer: its next record is decoded, checked against its issuer and run
(R70, R96, R98). -/

namespace Sys2Proof.Machine

variable {s : State} {a : Agent}

/-! ### What the rest of the schedule does not touch -/

@[simp] theorem holds_setTurns (ts : List Turn) : holds a (setTurns ts s) = holds a s := by cases a <;> rfl

@[simp] theorem inMicroSteps_setTurns (ts : List Turn) : inMicroSteps a (setTurns ts s) = inMicroSteps a s := by
  cases a <;> rfl

theorem pending_setTurns (ts : List Turn) : (setTurns ts s).inputs.pending a = s.inputs.pending a :=
  Inputs.pending_turns a ts s.inputs

/-! ### The turn -/

theorem step_of_turn {u : Turn} {ts : List Turn} (turn : s.inputs.turns = u :: ts) :
    step s = takeTurn u (setTurns ts s) := by
  simp only [step, scheduledStep, turn]

theorem agentTurn_of_free {r : Raw} {rs : List Raw} (ready : holds a s = false) (free : inMicroSteps a s = false)
    (next : s.inputs.pending a = r :: rs) : agentTurn a s = offer a r (markStep a (setPending a rs s)) := by
  simp [agentTurn, ready, free, next]

theorem offer_of_decode {r : Raw} {i : Instr} (decoded : decode r = .ok i) (issuer : i.issuer = a) :
    offer a r s = exec i s := by
  simp [offer, decoded, issuer]

/-- Settles O8: the turn, the agent's freedom and the decoded record decide each branch of the step. -/
theorem stepRunsDecodedInstruction : Obligations.StepRunsDecodedInstruction := by
  intro s a ts r rs i turn next ready free decoded issuer
  calc step s
      = agentTurn a (setTurns ts s) := step_of_turn turn
    _ = offer a r (markStep a (setPending a rs (setTurns ts s))) :=
        agentTurn_of_free (by simpa using ready) (by simpa using free) ((pending_setTurns ts).trans next)
    _ = exec i (markStep a (setPending a rs (setTurns ts s))) := offer_of_decode decoded issuer

end Sys2Proof.Machine
end

section
/-! PROOFS. Bit 7 of an address operand (R65, R207): both register operations read the address through `addrOperand`. -/

namespace Sys2Proof.Machine

theorem addrOperand_or_bit7 (a : BitVec 8) : addrOperand (a ||| 0x80) = addrOperand a := by
  simp [addrOperand, bitField, BitVec.extractLsb'_or]

theorem addrOperand_and_low7 (a : BitVec 8) : addrOperand (a &&& 0x7F) = addrOperand a := by
  have low : (0x7F : BitVec 8).extractLsb' 0 7 = BitVec.allOnes 7 := rfl
  rw [addrOperand, bitField, BitVec.extractLsb'_and, low, BitVec.and_allOnes]
  rfl

/-- Settles O41: set or clear, bit 7 leaves the address operand as it is. -/
theorem addressBit7Ignored : Obligations.AddressBit7Ignored := fun a v s =>
  ⟨by simp only [exec, execRegWrite, addrOperand_or_bit7, addrOperand_and_low7],
    by simp only [exec, execRegRead, addrOperand_or_bit7, addrOperand_and_low7]⟩

end Sys2Proof.Machine
end

section
/-! PROOFS. The decoder and the encoder are inverse to each other (R91, R92, R96, R97, R100): a record or a datagram is
taken apart into its fields once, and each direction is a case analysis over the rows. -/

namespace Sys2Proof

/-! ### The fields of an encoded record -/

theorem OpRecord.toBits_eq_iff {r : OpRecord} {o : RecordBits} : r.toBits = o ↔ OpRecord.ofBits o = r :=
  ⟨fun h => by rw [← h, OpRecord.ofBits_toBits], fun h => by rw [← h, OpRecord.toBits_ofBits]⟩

theorem opRecord_eq_iff {op : BitVec 4} {a : BitVec 8} {b : BitVec 16} {c : BitVec 32} {p : BitVec 64}
    {o : RecordBits} : opRecord op a b c p = .opr o ↔
      let r := OpRecord.ofBits o
      r.op = op ∧ r.reserved = 0 ∧ r.a = a ∧ r.b = b ∧ r.c = c ∧ r.p = p := by
  rw [opRecord, Raw.opr.injEq, OpRecord.toBits_eq_iff]
  cases OpRecord.ofBits o
  simp only [OpRecord.mk.injEq]

/-- A frame operand fills `P` and the low bits of `A` and `B`; the other bits must be zero (R96, R100). -/
theorem frameRecord_eq_iff {op : BitVec 4} {f : Frame} {o : RecordBits} : frameRecord op f = .opr o ↔
      let r := OpRecord.ofBits o
      r.op = op ∧ r.reserved = 0 ∧ r.frameSpare = true ∧ r.c = 0 ∧ r.frame = f := by
  constructor
  · intro h
    have fields : OpRecord.ofBits o = ⟨op, 0, 0#4 ++ f.len, 0#5 ++ f.id, 0, payloadToBits f.data⟩ :=
      OpRecord.toBits_eq_iff.mp (Raw.opr.inj h)
    rw [fields]
    exact ⟨rfl, rfl, OpRecord.frameSpare_of_fields .., rfl, OpRecord.frame_of_fields ..⟩
  · rintro ⟨hop, reserved, spare, hc, rfl⟩
    obtain ⟨ha, hb, hp⟩ := OpRecord.fields_of_frame _ spare
    exact opRecord_eq_iff.mpr ⟨hop, reserved, ha.symm, hb.symm, hc, hp.symm⟩

theorem decode_opRecord (op : BitVec 4) (a : BitVec 8) (b : BitVec 16) (c : BitVec 32) (p : BitVec 64) :
    decode (opRecord op a b c p) = decodeRecord { op := op, reserved := 0, a := a, b := b, c := c, p := p } := by
  rw [opRecord, decode, OpRecord.ofBits_toBits]

/-- Op codes 3 and 9 read the frame that was encoded. -/
theorem decode_frameRecord (f : Frame) :
    decode (frameRecord 0x3 f) = .ok (.send f) ∧ decode (frameRecord 0x9 f) = .ok (.frameArrival f) := by
  simp [frameRecord, decode_opRecord, decodeRecord, OpRecord.frame_of_fields, OpRecord.frameSpare_of_fields]

/-! ### The fields of a datagram: write flag, address, value (R90 to R92) -/

theorem bitField_writeFlag (w : BitVec 1) (a : ChipAddr) (v : Word) :
    bitField (w ++ a ++ v : DatagramBits) 39 1 = w := by
  apply BitVec.eq_of_getLsbD_eq
  intro i hi
  simp only [bitField, BitVec.getLsbD_extractLsb', BitVec.getLsbD_append]
  grind

theorem getLsbD_writeFlag (w : BitVec 1) (a : ChipAddr) (v : Word) :
    (w ++ a ++ v : DatagramBits).getLsbD 39 = w.getLsbD 0 := by
  simpa [bitField] using congrArg (·.getLsbD 0) (bitField_writeFlag w a v)

theorem bitField_addr (w : BitVec 1) (a : ChipAddr) (v : Word) : bitField (w ++ a ++ v : DatagramBits) 32 7 = a := by
  apply BitVec.eq_of_getLsbD_eq
  intro i hi
  simp only [bitField, BitVec.getLsbD_extractLsb', BitVec.getLsbD_append]
  grind

theorem bitField_value (w : BitVec 1) (a : ChipAddr) (v : Word) : bitField (w ++ a ++ v : DatagramBits) 0 32 = v :=
  BitVec.extractLsb'_append_eq_right ..

theorem exists_datagram_fields (g : DatagramBits) :
    ∃ (w : BitVec 1) (a : ChipAddr) (v : Word), (w ++ a ++ v : DatagramBits) = g := by
  refine ⟨bitField g 39 1, bitField g 32 7, bitField g 0 32, ?_⟩
  apply BitVec.eq_of_getLsbD_eq
  intro i hi
  simp only [bitField, BitVec.getLsbD_extractLsb', BitVec.getLsbD_append]
  grind

theorem decodeDatagram_append (w : BitVec 1) (a : ChipAddr) (v : Word) :
    decodeDatagram (w ++ a ++ v) =
      if w.getLsbD 0 then .ok (.dgramWrite a v) else if v == 0 then .ok (.dgramRead a)
      else .error .reservedEncoding := by
  rw [decodeDatagram, getLsbD_writeFlag, bitField_addr, bitField_value]

/-! ### Both directions -/

/-- Settles O1: row by row, the decoder finds the op code (or the write flag), zeros in the unused fields, and the
operand. -/
theorem decodeOfEncode : Obligations.DecodeOfEncode := by
  intro i
  cases i with
  | linkInit lb => cases lb <;> simp [encode, decode_opRecord, decodeRecord, bitField]
  | send f => exact (decode_frameRecord f).1
  | frameArrival f => exact (decode_frameRecord f).2
  | dgramWrite a v => exact decodeDatagram_append 1#1 a v
  | dgramRead a => exact decodeDatagram_append 0#1 a 0#32
  | receive n | regWrite a v | regRead a | rxIsr | txDone j | spiShift q | settleElapsed =>
    simp [encode, decode_opRecord, decodeRecord]

/-- A check that lets an instruction through has held. -/
theorem check_of_ite_ok {c : Prop} [Decidable c] {x i : Instr} {e : Reject}
    (h : (if c then Except.ok x else Except.error e) = .ok i) : c ∧ x = i := by
  split at h
  · exact ⟨‹c›, Except.ok.inj h⟩
  · cases h

/-- LINK_INIT's operand is all of `A` when the bits above it are zero (R96). -/
theorem eq_lowBit_of_high_zero {a : BitVec 8} (h : bitField a 1 7 = 0) : a = if a.getLsbD 0 then 1 else 0 := by
  revert h
  decide +revert

/-- Each arm of the decoder has checked every field that its instruction's record leaves zero. -/
theorem encode_of_decode_opr {o : RecordBits} {i : Instr} (h : decode (.opr o) = .ok i) : encode i = .opr o := by
  simp only [decode, decodeRecord] at h
  split at h
  · cases h
  rename_i reserved
  simp only [ne_eq, Decidable.not_not] at reserved
  split at h
  case h_11 => cases h
  all_goals
    rename_i op
    obtain ⟨unused, rfl⟩ := check_of_ite_ok h
    simp only [Bool.and_eq_true, beq_iff_eq, and_assoc] at unused
  case h_1 =>
    obtain ⟨ha, hb, hc, hp⟩ := unused
    exact opRecord_eq_iff.mpr ⟨BitVec.eq_of_toNat_eq op, reserved, eq_lowBit_of_high_zero ha, hb, hc, hp⟩
  case h_2 =>
    obtain ⟨ha, hc, hp⟩ := unused
    exact opRecord_eq_iff.mpr ⟨BitVec.eq_of_toNat_eq op, reserved, ha, rfl, hc, hp⟩
  case h_3 | h_7 => exact frameRecord_eq_iff.mpr ⟨BitVec.eq_of_toNat_eq op, reserved, unused.1, unused.2, rfl⟩
  case h_4 => exact opRecord_eq_iff.mpr ⟨BitVec.eq_of_toNat_eq op, reserved, rfl, unused.1, rfl, unused.2⟩
  case h_5 | h_8 | h_9 => exact opRecord_eq_iff.mpr ⟨BitVec.eq_of_toNat_eq op, reserved, rfl, unused⟩
  case h_6 | h_10 => exact opRecord_eq_iff.mpr ⟨BitVec.eq_of_toNat_eq op, reserved, unused⟩

theorem encode_of_decode_dgram {g : DatagramBits} {i : Instr} (h : decode (.dgram g) = .ok i) :
    encode i = .dgram g := by
  obtain ⟨w, a, v, rfl⟩ := exists_datagram_fields g
  rw [decode, decodeDatagram_append] at h
  obtain rfl | rfl := BitVec.eq_zero_or_eq_one w
  · obtain ⟨dummy, rfl⟩ := check_of_ite_ok h
    rw [encode, eq_of_beq dummy]
    rfl
  · obtain rfl : Instr.dgramWrite a v = i := Except.ok.inj h
    rfl

/-- Settles O2, by format. -/
theorem encodeOfDecode : Obligations.EncodeOfDecode := by
  intro r i h
  cases r with
  | opr o => exact encode_of_decode_opr h
  | dgram g => exact encode_of_decode_dgram h

theorem decode_eq_ok_iff {r : Raw} {i : Instr} : decode r = .ok i ↔ encode i = r :=
  ⟨encodeOfDecode r i, fun h => h ▸ decodeOfEncode i⟩

end Sys2Proof
end

section
/-! PROOFS. The opcode table's match and mask words against the decoder, and the records it refuses (R96, R97): a word
decodes to a row's instruction when it is that instruction's encoding, whose fields the mask asks for. -/

namespace Sys2Proof

/-- An instruction is of one of the table's twelve rows. -/
theorem Instr.exists_iff {P : Instr → Prop} : (∃ i, P i) ↔
    (∃ lb, P (.linkInit lb)) ∨ (∃ n, P (.receive n)) ∨ (∃ f, P (.send f)) ∨ (∃ a v, P (.regWrite a v)) ∨
    (∃ a, P (.regRead a)) ∨ P .rxIsr ∨ (∃ f, P (.frameArrival f)) ∨ (∃ j, P (.txDone j)) ∨ (∃ q, P (.spiShift q)) ∨
    P .settleElapsed ∨ (∃ a v, P (.dgramWrite a v)) ∨ ∃ a, P (.dgramRead a) := by
  constructor
  · rintro ⟨i, h⟩
    cases i <;> grind
  · grind

/-! ### Masks on fields -/

theorem OpRecord.and_eq_iff {o m k : RecordBits} :
    o &&& m = k ↔
      let r := OpRecord.ofBits o
      let u := OpRecord.ofBits m
      let q := OpRecord.ofBits k
      r.op &&& u.op = q.op ∧ r.reserved &&& u.reserved = q.reserved ∧ r.a &&& u.a = q.a ∧ r.b &&& u.b = q.b ∧
        r.c &&& u.c = q.c ∧ r.p &&& u.p = q.p := by
  rw [← OpRecord.toBits_ofBits o, ← OpRecord.toBits_ofBits m, OpRecord.toBits_and, OpRecord.toBits_eq_iff,
    OpRecord.ofBits_toBits, OpRecord.ofBits_toBits, eq_comm]
  cases OpRecord.ofBits k
  simp only [OpRecord.mk.injEq]

/-- The mask of a whole field, at each width a field has. -/
theorem and_full_mask : (∀ x : BitVec 1, x &&& 1#1 = x) ∧ (∀ x : BitVec 4, x &&& 0xF#4 = x) ∧
    (∀ x : BitVec 8, x &&& 0xFF#8 = x) ∧ (∀ x : BitVec 16, x &&& 0xFFFF#16 = x) ∧
    (∀ x : BitVec 32, x &&& 0xFFFFFFFF#32 = x) ∧ (∀ x : BitVec 64, x &&& 0xFFFFFFFFFFFFFFFF#64 = x) :=
  ⟨fun _ => BitVec.and_allOnes, fun _ => BitVec.and_allOnes, fun _ => BitVec.and_allOnes,
    fun _ => BitVec.and_allOnes, fun _ => BitVec.and_allOnes, fun _ => BitVec.and_allOnes⟩

/-- The bits from `k` up are zero as a field exactly when they are zero under their mask. -/
theorem high_zero_iff_and_mask {n : Nat} (x : BitVec n) (k : Nat) :
    bitField x k (n - k) = 0 ↔ x &&& BitVec.allOnes n <<< k = 0 := by
  constructor <;> intro h <;> apply BitVec.eq_of_getLsbD_eq <;> intro i hi
  · have bit := congrArg (·.getLsbD (i - k)) h
    simp only [bitField, BitVec.getLsbD_extractLsb', BitVec.getLsbD_and, BitVec.getLsbD_shiftLeft,
      BitVec.getLsbD_allOnes] at bit ⊢
    grind
  · have bit := congrArg (·.getLsbD (k + i)) h
    simp only [bitField, BitVec.getLsbD_extractLsb', BitVec.getLsbD_and, BitVec.getLsbD_shiftLeft,
      BitVec.getLsbD_allOnes] at bit ⊢
    grind

theorem OpRecord.frameSpare_iff (r : OpRecord) :
    r.frameSpare = true ↔ r.a &&& 0xF0 = 0 ∧ r.b &&& 0xF800 = 0 := by
  rw [OpRecord.frameSpare, Bool.and_eq_true, beq_iff_eq, beq_iff_eq]
  exact and_congr (high_zero_iff_and_mask r.a 4) (high_zero_iff_and_mask r.b 11)

theorem and_lowBit_mask_eq_zero_iff (a : BitVec 8) : a &&& 0xFE#8 = 0#8 ↔ a = 0#8 ∨ a = 1#8 := by decide +revert

/-! ### Masks on datagrams -/

theorem datagram_eq_iff {w w' : BitVec 1} {a a' : ChipAddr} {v v' : Word} :
    (w ++ a ++ v : DatagramBits) = w' ++ a' ++ v' ↔ w = w' ∧ a = a' ∧ v = v' := by
  refine ⟨fun h => ⟨?_, ?_, ?_⟩, fun ⟨hw, ha, hv⟩ => by rw [hw, ha, hv]⟩
  · simpa only [bitField_writeFlag] using congrArg (bitField · 39 1) h
  · simpa only [bitField_addr] using congrArg (bitField · 32 7) h
  · simpa only [bitField_value] using congrArg (bitField · 0 32) h

/-- A mask that leaves the address free asks for the write flag and for zeros in the value. -/
theorem datagram_and_eq_iff (w m k : BitVec 1) (a : ChipAddr) (v n : Word) :
    (w ++ a ++ v : DatagramBits) &&& (m ++ 0#7 ++ n) = k ++ 0#7 ++ 0#32 ↔ w &&& m = k ∧ v &&& n = 0 := by
  have fieldwise : (w ++ a ++ v) &&& (m ++ 0#7 ++ n) = (w &&& m) ++ (a &&& 0#7) ++ (v &&& n) := by
    rw [BitVec.and_append, BitVec.and_append]
  refine (Eq.congr_left fieldwise).trans ?_
  rw [datagram_eq_iff, BitVec.and_zero]
  simp only [true_and]
  rfl

/-! ### The table -/

/-- Once both sides speak of fields, a row's mask is, field by field, a whole field, no bit of it, LINK_INIT's upper
seven bits of `A`, or the spare bits of a frame record. -/
theorem recordTable_agrees : ∀ row ∈ recordTable, ∀ o : RecordBits,
    (o &&& row.2.2 = row.2.1) ↔ ∃ i, decode (.opr o) = .ok i ∧ i.mnemonic = row.1 := by
  intro row hrow o
  simp only [OpRecord.and_eq_iff, decode_eq_ok_iff, Instr.exists_iff, encode, opRecord_eq_iff, frameRecord_eq_iff,
    OpRecord.frameSpare_iff, reduceCtorEq, false_and, exists_false, or_false]
  simp only [recordTable, List.mem_cons, List.not_mem_nil, or_false] at hrow
  obtain rfl | rfl | rfl | rfl | rfl | rfl | rfl | rfl | rfl | rfl := hrow
  all_goals
    simp only [Instr.mnemonic, String.reduceEq]
    simp [OpRecord.ofBits, bitField, and_full_mask, and_lowBit_mask_eq_zero_iff, and_assoc]

theorem datagramTable_agrees : ∀ row ∈ datagramTable, ∀ g : DatagramBits,
    (g &&& row.2.2 = row.2.1) ↔ ∃ i, decode (.dgram g) = .ok i ∧ i.mnemonic = row.1 := by
  intro row hrow g
  obtain ⟨w, a, v, rfl⟩ := exists_datagram_fields g
  simp only [decode_eq_ok_iff, Instr.exists_iff, encode, opRecord, frameRecord, Raw.dgram.injEq, datagram_eq_iff,
    reduceCtorEq, false_and, exists_false, false_or]
  simp only [datagramTable, List.mem_cons, List.not_mem_nil, or_false] at hrow
  obtain rfl | rfl := hrow
  · refine (datagram_and_eq_iff w 1 1 a v 0).trans ?_
    simp [Instr.mnemonic, and_full_mask, eq_comm (a := w)]
  · refine (datagram_and_eq_iff w 1 0 a v 0xFFFFFFFF#32).trans ?_
    simp [Instr.mnemonic, and_full_mask, eq_comm (a := w), eq_comm (a := v)]

/-- Settles O3, by format. -/
theorem decodeAgreesWithOpcodeTable : Obligations.DecodeAgreesWithOpcodeTable :=
  ⟨recordTable_agrees, datagramTable_agrees⟩

/-! ### Refused records -/

/-- Every arm of the record decoder refuses with the one name. -/
theorem decode_opr_error {o : RecordBits} {e : Reject} (h : decode (.opr o) = .error e) : e = .reservedEncoding := by
  simp only [decode, decodeRecord] at h
  split at h
  · cases h; rfl
  split at h
  case h_11 => cases h; rfl
  all_goals
    split at h <;> cases h
    rfl

theorem decode_opr_of_ne_encode {o : RecordBits} (h : ∀ i, encode i ≠ .opr o) :
    decode (.opr o) = .error .reservedEncoding := by
  cases decoded : decode (.opr o) with
  | error e => rw [decode_opr_error decoded]
  | ok i => exact absurd (decode_eq_ok_iff.mp decoded) (h i)

end Sys2Proof

namespace Sys2Proof.Machine

variable {s : State} {a : Agent}

/-! ### A record given to a free agent -/

@[simp] theorem holds_setPending (b : Agent) (rs : List Raw) : holds a (setPending b rs s) = holds a s := by
  cases a <;> rfl

@[simp] theorem inMicroSteps_setPending (b : Agent) (rs : List Raw) :
    inMicroSteps a (setPending b rs s) = inMicroSteps a s := by
  cases a <;> rfl

theorem setPending_pending (a : Agent) (rs : List Raw) (s : State) :
    setPending a (s.inputs.pending a) (setPending a rs s) = s := by
  cases a <;> rfl

theorem setTurns_giveOffer (a : Agent) (r : Raw) (s : State) :
    setTurns s.inputs.turns (giveOffer a r s) = setPending a (r :: s.inputs.pending a) s := by
  cases a <;> rfl

/-- Such an agent offers the record at the state it was given it in. -/
theorem step_giveOffer (r : Raw) (ready : holds a s = false) (free : inMicroSteps a s = false) :
    step (giveOffer a r s) = offer a r (markStep a s) := by
  have turn : (giveOffer a r s).inputs.turns = .agent a :: s.inputs.turns := by simp [giveOffer, giveTurn]
  have next : (setPending a (r :: s.inputs.pending a) s).inputs.pending a = r :: s.inputs.pending a := by simp
  rw [step_of_turn turn, takeTurn, setTurns_giveOffer,
    agentTurn_of_free (by simpa using ready) (by simpa using free) next, setPending_pending]

/-- Settles O4: no instruction's record has a reserved op code, reserved bits or an unused field set. -/
theorem reservedRecordsRefused : Obligations.ReservedRecordsRefused := by
  intro o h
  have refused : decode (.opr o) = .error .reservedEncoding := by
    refine decode_opr_of_ne_encode fun i encoded => ?_
    cases i with
    | linkInit lb =>
      obtain ⟨op, reserved, a, b, c, p⟩ := opRecord_eq_iff.mp encoded
      have operand : bitField (OpRecord.ofBits o).a 1 7 = 0 := by rw [a]; cases lb <;> rfl
      simp [op, reserved, operand, b, c, p] at h
    | send f | frameArrival f =>
      obtain ⟨op, reserved, spare, c, -⟩ := frameRecord_eq_iff.mp encoded
      simp only [OpRecord.frameSpare, Bool.and_eq_true, beq_iff_eq] at spare
      simp [op, reserved, spare, c] at h
    | dgramWrite a v | dgramRead a => cases encoded
    | receive n | regWrite a v | regRead a | rxIsr | txDone j | spiShift q | settleElapsed =>
      obtain ⟨op, reserved, a, b, c, p⟩ := opRecord_eq_iff.mp encoded
      simp [op, reserved, a, b, c, p] at h
  refine ⟨refused, fun a s ready free => ?_⟩
  rw [step_giveOffer _ ready free, offer, refused]
  rfl

end Sys2Proof.Machine
end

section
/-! PROOFS. Datagrams as bytes (R60, R90, R101): five bytes, byte 0 first, are the datagram they make, and the engine's
two datagrams are the words of R91 and R92. -/

namespace Sys2Proof

theorem toNat_append_byte {n : Nat} (x : BitVec n) (b : Byte) : (x ++ b).toNat = b.toNat + 256 * x.toNat := by
  rw [BitVec.toNat_append, ← Nat.shiftLeft_add_eq_or_of_lt b.isLt, Nat.shiftLeft_eq]
  omega

theorem toList_datagramBytes (b : DatagramBytes) : b.toList = [b[0], b[1], b[2], b[3], b[4]] := by
  apply List.ext_getElem (by simp)
  intro j hj _
  rw [Vector.length_toList] at hj
  have cases_j : j = 0 ∨ j = 1 ∨ j = 2 ∨ j = 3 ∨ j = 4 := by omega
  obtain rfl | rfl | rfl | rfl | rfl := cases_j <;> simp

theorem natOfBytesBE_datagram (b : DatagramBytes) : natOfBytesBE b.toList = (datagramOfBytes b).toNat := by
  rw [toList_datagramBytes]
  simp only [natOfBytesBE, List.reverse_cons, List.reverse_nil, List.nil_append, List.cons_append, natOfBytesLE,
    datagramOfBytes, toNat_append_byte, Nat.mul_zero, Nat.add_zero]

/-- Settles O6: a datagram is the number its bytes spell, byte 0 most significant. -/
theorem decodeOfBytes : Obligations.DecodeOfBytes := by
  refine ⟨fun bs five sixteen => ?_, fun b => ?_⟩
  · rw [decodeBytes, if_neg five, if_neg sixteen]
  · rw [decodeBytes, if_pos Vector.length_toList, natOfBytesBE_datagram, BitVec.ofNat_toNat, BitVec.setWidth_eq]

theorem datagramBytes_ofBytes (b : DatagramBytes) : datagramBytes (datagramOfBytes b) = b := by
  ext j hj : 1
  apply BitVec.eq_of_getLsbD_eq
  intro i hi
  have cases_j : j = 0 ∨ j = 1 ∨ j = 2 ∨ j = 3 ∨ j = 4 := by omega
  obtain rfl | rfl | rfl | rfl | rfl := cases_j <;>
  · simp only [datagramBytes, datagramOfBytes, bitField, Vector.getElem_mk, List.getElem_toArray,
      List.getElem_cons_zero, List.getElem_cons_succ, BitVec.getLsbD_extractLsb', BitVec.getLsbD_append]
    grind

/-- Settles O5: each word is decoded by evaluation. -/
theorem decodesTheSpecsWords : Obligations.DecodesTheSpecsWords := by
  unfold Obligations.DecodesTheSpecsWords
  decide

end Sys2Proof

namespace Sys2Proof.Machine

theorem datagramOfBytes_msbFirst (w : BitVec 1) (a : ChipAddr) (v : Word) :
    datagramOfBytes (msbFirst (w ++ a) v) = w ++ a ++ v := by
  simp only [datagramOfBytes, msbFirst, bitField, Vector.getElem_mk, List.getElem_toArray, List.getElem_cons_zero,
    List.getElem_cons_succ]
  apply BitVec.eq_of_getLsbD_eq
  intro i hi
  simp only [BitVec.getLsbD_extractLsb', BitVec.getLsbD_append]
  grind

theorem datagramOfBytes_write (a : ChipAddr) (v : Word) : datagramOfBytes (writeDatagram a v) = 1#1 ++ a ++ v := by
  have head : (a.setWidth 8 ||| 0x80 : Byte) = 1#1 ++ a := by decide +revert
  rw [writeDatagram, head, datagramOfBytes_msbFirst]

theorem datagramOfBytes_read (a : ChipAddr) : datagramOfBytes (readDatagram a) = 0#1 ++ a ++ 0#32 := by
  have head : (a.setWidth 8 : Byte) = 0#1 ++ a := by decide +revert
  rw [readDatagram, head]
  exact datagramOfBytes_msbFirst 0#1 a 0#32

theorem setWidth_addrOperand (a : BitVec 8) : ((addrOperand a).setWidth 8 : Byte) = a &&& 0x7F := by
  decide +revert

/-- Settles O7: both datagrams are a write flag, the address operand and the value. -/
theorem registerDatagramBits : Obligations.RegisterDatagramBits := by
  intro a v
  rw [datagramBytes_ofBytes, datagramOfBytes_write, datagramOfBytes_read]
  refine ⟨⟨getLsbD_writeFlag .., bitField_addr .., bitField_value ..⟩,
    ⟨getLsbD_writeFlag .., bitField_addr .., bitField_value ..⟩, ?_⟩
  rw [writeDatagram, setWidth_addrOperand, msbFirst]

end Sys2Proof.Machine
end

section
/-! PROOFS. The turn that the host or the schedule gives: a placed word, another agent's record, no turn at all; and
the operand range checks (R96, R98, R99). -/

namespace Sys2Proof.Machine

variable {s : State}

theorem decode_of_decodeTableWord {nbits w : Nat} {i : Instr} (read : decodeTableWord nbits w = some i) :
    decode (rawOfTable nbits w) = .ok i := by
  rw [decodeTableWord] at read
  cases decoded : decode (rawOfTable nbits w) with
  | error e => simp [decoded, Except.toOption] at read
  | ok j => simpa [decoded, Except.toOption] using read

/-- Settles O9: the word is a record given to its issuer, and MAIN's step is marked already. -/
theorem fetchWordRunsNext : Obligations.FetchWordRunsNext := by
  intro s nbits w i read ready free
  have decoded := decode_of_decodeTableWord read
  have issuer : issuerOfRaw (rawOfTable nbits w) = i.issuer := by rw [issuerOfRaw, decoded]
  have started_free : inMicroSteps i.issuer { s with mainStepped := true } = false := by
    rw [← free]
    cases i.issuer <;> rfl
  rw [State.withFetchWord, issuer, step_giveOffer _ ready started_free, offer_of_decode decoded rfl]
  rfl

/-- Settles O10: the record decodes, so the issuer check alone refuses it; the issuers by definition. -/
theorem wrongIssuerRefused : Obligations.WrongIssuerRefused := by
  refine ⟨fun s a i ready free other => ?_, rfl, fun _ => rfl, fun _ => rfl, fun _ => rfl, rfl, fun _ => rfl,
    fun _ => rfl, fun _ => rfl, fun _ _ => rfl, fun _ => rfl, fun _ _ => rfl, fun _ => rfl⟩
  rw [step_giveOffer _ ready free, offer, decodeOfEncode i]
  exact if_neg other

/-! ### No turn -/

theorem step_of_no_turn (turns : s.inputs.turns = []) : step s = .next (unscheduled s) := by
  rw [step, scheduledStep, turns]

theorem unscheduled_of_drain (ready : holds .main s = false) (busy : s.rxu.rxBusy = true) :
    unscheduled s = rxPop s := by
  simp [unscheduled, ready, inMicroSteps, busy]

theorem unscheduled_of_no_drain (free : s.rxu.rxBusy = false) :
    unscheduled s = if holds .sre s then s else sreMicro s := by
  simp [unscheduled, inMicroSteps, free]

theorem sreMicro_of_put (ready : holds .sre s = false) (put : s.sre.eng = .put) : sreMicro s = xchgPut s := by
  obtain ⟨-, isr⟩ := Bool.or_eq_false_iff.mp ready
  simp [sreMicro, isr, put]

theorem sreMicro_of_get (ready : holds .sre s = false) (get : s.sre.eng = .get) : sreMicro s = xchgGet s := by
  obtain ⟨-, isr⟩ := Bool.or_eq_false_iff.mp ready
  simp [sreMicro, isr, get]

/-- In SETTLE, as in IDLE, the SRE has no micro-step (R201). -/
theorem sreMicro_of_settle (settle : s.sre.eng = .settle) : sreMicro s = s := by
  obtain e | ⟨-, eng, -⟩ | ⟨-, eng, -⟩ := sreMicro_cases s
  · exact e
  all_goals simp [settle] at eng

/-- Settles O13: the drain first, then the engine by its state. -/
theorem unscheduledStep : Obligations.UnscheduledStep := by
  intro s turns
  rw [step_of_no_turn turns]
  refine ⟨fun ready busy => ?_, fun ready free put => ?_, fun ready free get => ?_, fun free eng => ?_⟩
  · rw [unscheduled_of_drain ready busy]
  · rw [unscheduled_of_no_drain free, ← sreMicro_of_put ready put, ready]
    rfl
  · rw [unscheduled_of_no_drain free, ← sreMicro_of_get ready get, ready]
    rfl
  · have stays : sreMicro s = s := eng.elim sreMicro_of_idle sreMicro_of_settle
    rw [unscheduled_of_no_drain free, stays, ite_self]

/-! ### Operand ranges -/

/-- Settles O31: each check, and each acceptance, is a branch of its meaning. -/
theorem operandRangeChecks : Obligations.OperandRangeChecks := by
  refine fun s => ⟨fun f up long => ?_, fun i absent => ?_, fun f => ⟨_, rfl⟩, fun up n => ?_, fun idle a v => ?_⟩
  · simp [exec, execSend, up, lenMax, long]
  · simp [exec, execTxDone, absent]
  · simp [exec, execReceive, up]
  · simp [exec, execRegWrite, execRegRead, idle]

end Sys2Proof.Machine
end

section
/-! PROOFS. What an instruction can do to the serial engine, and the two patterns it sends (R91, R92, R94). -/

namespace Sys2Proof.Machine

variable {s t : State}

@[simp] theorem produce_sre (s : State) : (produce s).sre = s.sre := by rw [produce_eq]

@[simp] theorem transmitted_sre (f : Frame) (s : State) : (transmitted f s).sre = s.sre := by
  obtain ⟨e, -⟩ | ⟨e, -⟩ := transmitted_cases f s <;> simp [e]

/-! ### The inversion lemma -/

/-- Everything an instruction can do to the serial engine. -/
inductive SreCase (i : Instr) (s t : State) : Prop where
  | same (eq : t.sre = s.sre)
  | regWrite (a : BitVec 8) (v : Word) (instr : i = .regWrite a v) (idle : s.sre.eng = .idle)
      (eq : t.sre = (startTransaction .wr (writeDatagram (addrOperand a) v) (latchCaller (addrOperand a) s)).sre)
  | regRead (a : BitVec 8) (instr : i = .regRead a) (idle : s.sre.eng = .idle)
      (eq : t.sre = (startTransaction .rd1 (readDatagram (addrOperand a)) (latchCaller (addrOperand a) s)).sre)
  | shift (r : Byte) (instr : i = .spiShift r) (enabled : shiftEnabled s = true) (eq : t.sre = (shiftByte r s).sre)
  | settleElapsed (instr : i = .settleElapsed) (settle : s.sre.eng = .settle)
      (eq : t.sre = (startTransaction .rd2 (readDatagram s.sre.addr) s).sre)
  | lone (b q : DatagramBytes) (idle : s.sre.eng = .idle) (eq : t.sre = (wholeTransaction b q s).sre)

/-- Only the register operations, their events and the lone datagrams reach the engine. -/
theorem exec_sreCase {i : Instr} (h : exec i s = .next t) : SreCase i s t := by
  cases i with
  | linkInit lb => obtain ⟨-, rfl⟩ := execLinkInit_next h; exact .same rfl
  | receive n => obtain ⟨-, rfl⟩ := execReceive_next h; exact .same rfl
  | send f => obtain ⟨-, -, ⟨-, rfl⟩ | ⟨j, -, rfl⟩⟩ := execSend_next h <;> exact .same rfl
  | regWrite a v => obtain ⟨idle, rfl⟩ := execRegWrite_next h; exact .regWrite a v rfl idle rfl
  | regRead a => obtain ⟨idle, rfl⟩ := execRegRead_next h; exact .regRead a rfl idle rfl
  | rxIsr => obtain ⟨-, rfl⟩ | ⟨-, rfl⟩ := execRxIsr_next h <;> exact .same (by simp)
  | frameArrival f => obtain rfl := execFrameArrival_next h; exact .same (arrive_sre f)
  | txDone j => obtain ⟨-, rfl | ⟨m, -, -, rfl⟩⟩ := execTxDone_next h <;> exact .same (by simp)
  | spiShift r =>
    obtain ⟨-, rfl⟩ | ⟨enabled, rfl⟩ := execSpiShift_next h
    · exact .same rfl
    · exact .shift r rfl enabled rfl
  | settleElapsed =>
    obtain ⟨-, rfl⟩ | ⟨settle, rfl⟩ := execSettleElapsed_next h
    · exact .same rfl
    · exact .settleElapsed rfl settle rfl
  | dgramWrite a v => obtain ⟨idle, rfl⟩ := execDgramWrite_next h; exact .lone _ _ idle rfl
  | dgramRead a => obtain ⟨idle, rfl⟩ := execDgramRead_next h; exact .lone _ _ idle rfl

/-! ### The datagram in flight -/

/-- In a transaction the datagram loaded is the one of its phase and address (R94). -/
def SendsPattern (e : Sre) : Prop :=
  e.eng = .put ∨ e.eng = .get →
    if e.phase = .wr then ∃ v, e.tx = writeDatagram e.addr v else e.tx = readDatagram e.addr

theorem SendsPattern.of_not_sending {e : Sre} (h : e.eng = .idle ∨ e.eng = .settle) : SendsPattern e := by
  rintro (sending | sending) <;> simp [sending] at h

/-- A transaction in flight goes on, with its phase, address and datagram as they were. -/
theorem SendsPattern.of_same_datagram {e e' : Sre} (h : SendsPattern e) (sending : e.eng = .put ∨ e.eng = .get)
    (phase : e'.phase = e.phase) (tx : e'.tx = e.tx) (addr : e'.addr = e.addr) : SendsPattern e' := fun _ => by
  simpa only [phase, tx, addr] using h sending

theorem SendsPattern.sreMicro (h : SendsPattern s.sre) : SendsPattern (sreMicro s).sre := by
  obtain e | ⟨-, put, e⟩ | ⟨-, get, e⟩ := sreMicro_cases s <;> rw [e]
  · exact h
  · obtain ⟨e, -⟩ | ⟨e, -⟩ := xchgPut_cases s <;> rw [e]
    · exact h
    · exact h.of_same_datagram (.inl put) rfl rfl rfl
  · obtain ⟨e, -⟩ | ⟨-, -, -, e⟩ | ⟨-, -, -, e⟩ := xchgGet_cases s <;> rw [e]
    · exact h
    · exact h.of_same_datagram (.inr get) rfl rfl rfl
    · obtain ⟨-, e⟩ | ⟨-, e⟩ | ⟨-, e⟩ := endTransaction_cases (takeReply s) <;> rw [e]
      · exact .of_not_sending (.inl rfl)
      · exact .of_not_sending (.inr rfl)
      · exact .of_not_sending (.inl rfl)

theorem exec_sendsPattern {i : Instr} (run : exec i s = .next t) (h : SendsPattern s.sre) : SendsPattern t.sre := by
  cases exec_sreCase run with
  | same eq => rwa [eq]
  | regWrite a v instr idle eq => rw [eq]; exact fun _ => ⟨v, rfl⟩
  | regRead a instr idle eq => rw [eq]; exact fun _ => rfl
  | shift r instr enabled eq => rw [eq]; exact h
  | settleElapsed instr settle eq => rw [eq]; exact fun _ => rfl
  | lone b q idle eq => rw [eq]; exact .of_not_sending (.inl idle)

theorem step_sendsPattern (run : step s = .next t) (h : SendsPattern s.sre) : SendsPattern t.sre := by
  obtain ⟨n, -, c⟩ := step_cases run
  cases c with
  | stay eq => rwa [eq]
  | pop ready busy eq => rwa [eq, rxPop_sre]
  | micro eq => rw [eq]; exact SendsPattern.sreMicro (s := { s with inputs := n }) h
  | run i m turn ready free mark eq =>
    exact exec_sendsPattern (s := { s with inputs := n, mainStepped := m }) eq h
  | reset turn eq => rw [eq]; exact .of_not_sending (.inl rfl)

/-- Settles O53: `SendsPattern` is kept by every step, from any state. -/
theorem sreSendsOnlyTheTwoPatterns : Obligations.SreSendsOnlyTheTwoPatterns :=
  fun _ _ _ h run => step_sendsPattern run h

end Sys2Proof.Machine
end

section
/-! PROOFS. The turn of an agent inside an operation is its next micro-step (R96, R128, R201), and a turn or a record
given to an agent is taken at the state it was given in (R70, R102). -/

namespace Sys2Proof.Machine

variable {s : State} {a : Agent}

theorem agentTurn_of_inMicroSteps (ready : holds a s = false) (inside : inMicroSteps a s = true) :
    agentTurn a s = .next (microStep a s) := by
  simp [agentTurn, ready, inside]

theorem step_of_inMicroSteps {ts : List Turn} (turn : s.inputs.turns = .agent a :: ts) (ready : holds a s = false)
    (inside : inMicroSteps a s = true) : step s = .next (microStep a (setTurns ts s)) := by
  rw [step_of_turn turn, takeTurn, agentTurn_of_inMicroSteps (by simpa using ready) (by simpa using inside)]

/-- Settles O12: the turn is the agent's micro-step, and the SRE's is the one its engine state names. -/
theorem microStepsAreTheAgentsTurns : Obligations.MicroStepsAreTheAgentsTurns := by
  refine fun s ts => ⟨step_of_inMicroSteps, fun turn ready put => ?_, fun turn ready get => ?_⟩
  · have ready' : holds .sre (setTurns ts s) = false := by simpa using ready
    rw [step_of_inMicroSteps turn ready (by simp [inMicroSteps, put]), microStep, sreMicro_of_put ready' put]
  · have ready' : holds .sre (setTurns ts s) = false := by simpa using ready
    rw [step_of_inMicroSteps turn ready (by simp [inMicroSteps, get]), microStep, sreMicro_of_get ready' get]

theorem turnOf_eq_agentTurn (a : Agent) (s : State) : turnOf a s = agentTurn a s :=
  step_of_turn (s := giveTurn a s) rfl

theorem issue_of_free {i : Instr} (ready : holds i.issuer s = false) (free : inMicroSteps i.issuer s = false) :
    issue i s = exec i (markStep i.issuer s) := by
  rw [issue, step_giveOffer _ ready free, offer_of_decode (decodeOfEncode i) rfl]

end Sys2Proof.Machine
end

section
/-! PROOFS. The receive family, one equation for each branch of a meaning (R120 to R129): LINK_INIT, FRAME_ARRIVAL,
RX_ISR, RECEIVE and RX_POP. -/

namespace Sys2Proof.Machine

variable {s : State}

/-! ### LINK_INIT and the link flag -/

theorem exec_linkInit_of_down (down : s.rxu.linkUp = false) (lb : Bool) : exec (.linkInit lb) s = .next { s with
    rxu := { s.rxu with loopback := lb, head := 0, tail := 0, linkUp := true }
    txu := { s.txu with mailboxes := s.txu.mailboxes.map fun m => { m with busy := false } } } := by
  simp [exec, execLinkInit, down]

/-- Settles O16: the next state is LINK_INIT's open branch, and the flags are read off it. -/
theorem linkInitCompletes : Obligations.LinkInitCompletes := by
  refine fun lb s down => ⟨_, exec_linkInit_of_down down lb, rfl, rfl, fun m hm => ?_, fun empty => ?_,
    decodeOfEncode (.linkInit lb)⟩
  · obtain ⟨_, -, rfl⟩ := List.mem_map.mp hm
    rfl
  · simp [irqRx, empty]

theorem exec_receive_of_down (down : s.rxu.linkUp = false) (n : BitVec 16) :
    exec (.receive n) s = .refused .linkNotInitialised := by
  simp [exec, execReceive, down]

/-- Settles O17: each meaning looks at the link flag first. -/
theorem linkRefusals : Obligations.LinkRefusals := by
  refine fun s => ⟨fun up lb => ?_, fun down => ⟨exec_receive_of_down down, fun f => ?_⟩⟩
  · simp [exec, execLinkInit, up]
  · simp [exec, execSend, down]

/-! ### FRAME_ARRIVAL -/

theorem arrive_of_down (down : s.rxu.linkUp = false) (f : Frame) : arrive f s = s := by
  simp [arrive, down]

theorem arrive_of_full (full : s.rxu.hwq.length = s.cfg.hwRxDepth) (f : Frame) : arrive f s = s := by
  simp [arrive, stageFull, full]

theorem arrive_of_room (up : s.rxu.linkUp = true) (room : s.rxu.hwq.length ≠ s.cfg.hwRxDepth) (f : Frame) :
    arrive f s = { s with rxu := { s.rxu with hwq := s.rxu.hwq ++ [f] } } := by
  simp [arrive, stageFull, up, room]

theorem exec_frameArrival (f : Frame) (s : State) : exec (.frameArrival f) s = .next (arrive f s) := rfl

/-- No agent but MAIN is marked by its step. -/
theorem markStep_of_ne_main {a : Agent} (other : a ≠ .main) (s : State) : markStep a s = s := by
  have unmarked : (a == .main) = false := beq_eq_false_iff_ne.mpr other
  simp [markStep, unmarked]

/-- Settles O18: BUS never holds and has no micro-steps, and the arrival is one of three cases. -/
theorem frameArrivalCompletes : Obligations.FrameArrivalCompletes := by
  refine fun f s => ⟨?_, fun down => ?_, fun _ full => ?_, fun up room => ⟨_, ?_, rfl, ?_⟩,
    decodeOfEncode (.frameArrival f)⟩
  · calc issue (.frameArrival f) s
        = exec (.frameArrival f) (markStep .bus s) := issue_of_free rfl rfl
      _ = exec (.frameArrival f) s := by rw [markStep_of_ne_main (by decide)]
  · rw [exec_frameArrival, arrive_of_down down]
  · rw [exec_frameArrival, arrive_of_full full]
  · rw [exec_frameArrival, arrive_of_room up room]
  · simp [irqRx, up]

/-! ### RX_ISR -/

/-- Interrupt entry and return leave no trace (R246, R247): an interrupt that is taken is the producer's work. -/
theorem exec_rxIsr_of_requested (requested : irqRx s = true) (outside : s.rxu.inIsr = false) :
    exec .rxIsr s = .next (produce s) := by
  have enabled : rxIsrEnabled s = true := by simp [rxIsrEnabled, requested, outside]
  rw [exec, execRxIsr, if_pos enabled, produce_enterIsr, leaveIsr_enterIsr (by rw [produce_inIsr, outside])]

theorem irqRx_of_staged {f : Frame} {q : List Frame} (up : s.rxu.linkUp = true) (stage : s.rxu.hwq = f :: q) :
    irqRx s = true := by
  simp [irqRx, up, stage]

theorem produce_of_full {f : Frame} {q : List Frame} (stage : s.rxu.hwq = f :: q) (full : ringFull s = true) :
    produce s = { s with rxu := { s.rxu with hwq := q } } := by
  simp [produce, stage, full, acknowledge]

theorem produce_of_room {f : Frame} {q : List Frame} (stage : s.rxu.hwq = f :: q) (room : ringFull s = false) :
    produce s = { s with
      rxu := { s.rxu with slots := s.rxu.slots.set s.rxu.head f, head := nextIndex s s.rxu.head, hwq := q } } := by
  simp [produce, stage, room, acknowledge, storeFrame]

/-- Settles O19: the interrupt is requested, and the producer's branch is the ring being full. -/
theorem rxIsrCompletes : Obligations.RxIsrCompletes := by
  intro s f q up stage outside
  rw [exec_rxIsr_of_requested (irqRx_of_staged up stage) outside]
  refine ⟨fun full => ?_, fun room => ?_, decodeOfEncode .rxIsr⟩
  · rw [produce_of_full stage (beq_iff_eq.mpr full)]
  · rw [produce_of_room stage (beq_eq_false_iff_ne.mpr room)]
    rfl

/-! ### RECEIVE and RX_POP -/

/-- A drain of up to `n` frames starts with nothing copied out (R127). -/
def startDrain (n : BitVec 16) (s : State) : State :=
  { s with rxu := { s.rxu with rxOut := [], rxLeft := n, rxBusy := true } }

theorem exec_receive_of_up (up : s.rxu.linkUp = true) (n : BitVec 16) :
    exec (.receive n) s = .next (startDrain n s) := by
  simp [exec, execReceive, up, startDrain]

/-- Settles O21, by the link flag. -/
theorem receiveStarts : Obligations.ReceiveStarts := fun n _ =>
  ⟨fun up => exec_receive_of_up up n, fun down => exec_receive_of_down down n, decodeOfEncode (.receive n)⟩

theorem rxPop_of_idle (idle : s.rxu.rxBusy = false) : rxPop s = s := by
  simp [rxPop, idle]

theorem rxPop_of_done (busy : s.rxu.rxBusy = true) (done : s.rxu.rxLeft = 0 ∨ s.rxu.tail = s.rxu.head) :
    rxPop s = endReceive s := by
  rw [rxPop, if_pos busy, if_pos (by simpa using done)]

theorem rxPop_of_more (busy : s.rxu.rxBusy = true) (left : s.rxu.rxLeft ≠ 0) (more : s.rxu.tail ≠ s.rxu.head) :
    rxPop s = takeFrame s := by
  rw [rxPop, if_pos busy, if_neg (by simpa using ⟨left, more⟩)]

theorem slotAt_of_lt {i : Nat} (h : i < s.rxu.slots.length) : slotAt s i = s.rxu.slots[i] :=
  List.getD_eq_getElem _ _ h

/-- Settles O22, by the three branches of RX_POP. -/
theorem rxPopStep : Obligations.RxPopStep := by
  refine fun s => ⟨rxPop_of_idle, rxPop_of_done, fun busy left more inRange => ?_⟩
  rw [rxPop_of_more busy left more, takeFrame, slotAt_of_lt inRange]
  rfl

end Sys2Proof.Machine
end

section
/-! PROOFS. A whole RECEIVE (R127 to R130): while a drain goes on, what it will return and what it will leave in the
ring do not change; it ends when both are reached. -/

namespace Sys2Proof.Machine

variable {s t : State}

/-! ### What a drain will return and leave -/

/-- The frames a drain returns: those copied out, then the oldest of the ring up to the count left (R128). -/
def drainOutput (s : State) : List Frame := s.rxu.rxOut ++ (ringFrames s).take s.rxu.rxLeft.toNat

/-- The frames a drain leaves in the ring. -/
def drainRest (s : State) : List Frame := (ringFrames s).drop s.rxu.rxLeft.toNat

/-- `t` is the state the drain of `s` ends in (R129). -/
structure Drained (s t : State) : Prop where
  ret : t.ret = some (.received (drainOutput s).length (drainOutput s))
  rest : ringFrames t = drainRest s
  idle : t.rxu.rxBusy = false
  head : t.rxu.head = s.rxu.head
  stage : t.rxu.hwq = s.rxu.hwq

/-- With the count used up or the ring empty, all is returned that will be. -/
theorem Drained.endReceive (done : s.rxu.rxLeft = 0 ∨ s.rxu.tail = s.rxu.head) : Drained s (endReceive s) := by
  have nothing_left : (ringFrames s).take s.rxu.rxLeft.toNat = [] ∧ drainRest s = ringFrames s := by
    obtain left | empty := done
    · simp [drainRest, left]
    · simp [drainRest, ringFrames_eq_nil empty.symm]
  obtain ⟨take_nil, rest⟩ := nothing_left
  have output : drainOutput s = s.rxu.rxOut := by rw [drainOutput, take_nil, List.append_nil]
  exact
    { ret := by rw [output, endReceive_ret]
      rest := by rw [rest]; rfl
      idle := rfl
      head := rfl
      stage := rfl }

/-- A copy moves the ring's oldest frame to the end of the frames copied out. -/
theorem ringFrames_takeFrame (h : RxuInv s.cfg s.rxu) (more : s.rxu.tail ≠ s.rxu.head) :
    ringFrames s = slotAt s s.rxu.tail :: ringFrames (takeFrame s) :=
  ringFrames_take h.head_lt h.tail_lt more rfl rfl rfl rfl

theorem toNat_rxLeft_takeFrame (left : s.rxu.rxLeft ≠ 0) :
    s.rxu.rxLeft.toNat = (takeFrame s).rxu.rxLeft.toNat + 1 := by
  rw [takeFrame_rxu]
  bv_omega

/-- What holds of the drain's end after a copy holds of it before. -/
theorem Drained.of_takeFrame (h : RxuInv s.cfg s.rxu) (left : s.rxu.rxLeft ≠ 0) (more : s.rxu.tail ≠ s.rxu.head)
    (d : Drained (takeFrame s) t) : Drained s t := by
  have output : drainOutput (takeFrame s) = drainOutput s := by
    rw [drainOutput, drainOutput, ringFrames_takeFrame h more, toNat_rxLeft_takeFrame left, List.take_succ_cons]
    simp
  have rest : drainRest (takeFrame s) = drainRest s := by
    rw [drainRest, drainRest, ringFrames_takeFrame h more, toNat_rxLeft_takeFrame left, List.drop_succ_cons]
  exact { d with ret := output ▸ d.ret, rest := rest ▸ d.rest }

/-! ### The run -/

theorem turnOf_main_in_drain (ready : holds .main s = false) (busy : s.rxu.rxBusy = true) :
    turnOf .main s = .next (rxPop s) := by
  rw [turnOf_eq_agentTurn, agentTurn_of_inMicroSteps ready busy]
  rfl

theorem drainTurns_of_idle (idle : s.rxu.rxBusy = false) (k : Nat) : drainTurns k s = .next s := by
  cases k <;> simp [drainTurns, idle]

theorem drainTurns_of_busy (ready : holds .main s = false) (busy : s.rxu.rxBusy = true) (k : Nat) :
    drainTurns (k + 1) s = drainTurns k (rxPop s) := by
  rw [drainTurns, if_pos busy, turnOf_main_in_drain ready busy, andThen]

/-- A drain ends within one turn more than the count left (R130 (3)): each copy lowers the count. -/
theorem exists_drained_of_lt {k : Nat} (h : RxuInv s.cfg s.rxu) (ready : holds .main s = false)
    (busy : s.rxu.rxBusy = true) (enough : s.rxu.rxLeft.toNat < k) :
    ∃ t, drainTurns k s = .next t ∧ Drained s t := by
  induction k generalizing s with
  | zero => simp at enough
  | succ k ih =>
    rw [drainTurns_of_busy ready busy]
    by_cases done : s.rxu.rxLeft = 0 ∨ s.rxu.tail = s.rxu.head
    · rw [rxPop_of_done busy done, drainTurns_of_idle rfl]
      exact ⟨_, rfl, .endReceive done⟩
    · obtain ⟨left, more⟩ := not_or.mp done
      have popped := rxPop_of_more busy left more
      have inv : RxuInv s.cfg (takeFrame s).rxu := popped ▸ h.rxPop
      have lowered := toNat_rxLeft_takeFrame left
      obtain ⟨t, run, drained⟩ := ih (s := takeFrame s) inv ready busy (by omega)
      exact ⟨t, by rw [popped, run], drained.of_takeFrame h left more⟩

theorem issue_receive (ready : MainReady s) (up : s.rxu.linkUp = true) (n : BitVec 16) :
    issue (.receive n) s = .next (startDrain n (markStep .main s)) :=
  calc issue (.receive n) s
      = exec (.receive n) (markStep .main s) := issue_of_free ready.1 ready.2
    _ = .next (startDrain n (markStep .main s)) := exec_receive_of_up (s := markStep .main s) up n

/-- A drain that starts will return the `n` oldest frames of the ring, or all it holds. -/
theorem drainOutput_startDrain (n : BitVec 16) (s : State) :
    drainOutput (startDrain n s) = (ringFrames s).take n.toNat := rfl

/-- Settles O23: the drain that RECEIVE starts, with `max_n + 1` turns, ends. -/
theorem receiveReturnsOldestFrames : Obligations.ReceiveReturnsOldestFrames := by
  intro n s inv main up
  obtain ⟨t, run, drained⟩ := exists_drained_of_lt (k := n.toNat + 1) (s := startDrain n (markStep .main s))
    (inv.rxu.receive up n) main.1 rfl (Nat.lt_succ_self _)
  have ret := drained.ret
  rw [drainOutput_startDrain, List.length_take, length_ringFrames] at ret
  refine ⟨t, ?_, ret, drained.rest, drained.idle, drained.head, drained.stage⟩
  rw [receiveRun, issue_receive main up, andThen, run]

end Sys2Proof.Machine
end

section
/-! PROOFS. The interrupt taken for every staged frame (R125, R126, R131): the producer appends each to the ring, cut at
`RING_N - 1` frames. -/

namespace Sys2Proof.Machine

variable {s : State}

theorem length_ringFrames_le (h : RxuInv s.cfg s.rxu) : (ringFrames s).length ≤ s.cfg.ringN - 1 := by
  rw [length_ringFrames]
  exact Nat.le_pred_of_lt (Nat.mod_lt _ (Nat.zero_lt_of_lt h.head_lt))

/-- The producer appends the oldest staged frame, which a full ring cuts off. -/
theorem ringFrames_produce {f : Frame} {q : List Frame} (inv : Inv s) (stage : s.rxu.hwq = f :: q) :
    ringFrames (produce s) = (ringFrames s ++ [f]).take (s.cfg.ringN - 1) := by
  have h := inv.rxu
  cases full : ringFull s with
  | true =>
    have occ := occupancy_of_full h inv.legal full
    rw [produce_of_full stage full, List.take_left' (by rw [length_ringFrames, occ])]
    rfl
  | false =>
    have room := occupancy_of_not_full h inv.legal full
    have stored : ringFrames (produce s) = ringFrames s ++ [f] := by
      rw [produce_of_room stage full]
      exact ringFrames_store f h.slots_length h.head_lt h.tail_lt full rfl rfl rfl rfl
    rw [stored, List.take_of_length_le (by simp; omega)]

theorem produce_hwq {f : Frame} {q : List Frame} (stage : s.rxu.hwq = f :: q) : (produce s).rxu.hwq = q := by
  cases full : ringFull s with
  | true => rw [produce_of_full stage full]
  | false => rw [produce_of_room stage full]

@[simp] theorem produce_inputs (s : State) : (produce s).inputs = s.inputs := by rw [produce_eq]

/-- Cutting a list before more is appended makes no difference to the cut of the whole. -/
theorem take_take_append {α : Type} (m : Nat) (l r : List α) : (l.take m ++ r).take m = (l ++ r).take m := by
  rw [List.take_append, List.take_append, List.take_take, Nat.min_self, List.length_take]
  congr 2
  omega

/-- With no record of its own, the ISR's turn takes the interrupt (log entry 9). -/
theorem turnOf_isr_of_requested (requested : irqRx s = true) (outside : s.rxu.inIsr = false)
    (none_offered : s.inputs.isr = []) : turnOf .isr s = .next (produce s) := by
  rw [turnOf_eq_agentTurn, ← exec_rxIsr_of_requested requested outside]
  simp [agentTurn, holds, inMicroSteps, Inputs.pending, none_offered, spontaneous]

theorem exists_turnsOf_isr {q : List Frame} (inv : Inv s) (up : s.rxu.linkUp = true) (none_offered : s.inputs.isr = [])
    (stage : s.rxu.hwq = q) :
    ∃ t, turnsOf .isr q.length s = .next t ∧ ringFrames t = (ringFrames s ++ q).take (s.cfg.ringN - 1) ∧
      t.rxu.hwq = [] ∧ t.rxu.tail = s.rxu.tail := by
  induction q generalizing s with
  | nil =>
    refine ⟨s, rfl, ?_, stage, rfl⟩
    rw [List.append_nil, List.take_of_length_le (length_ringFrames_le inv.rxu)]
  | cons f q ih =>
    obtain ⟨t, run, ring, empty, tail⟩ :=
      ih inv.produce ((produce_linkUp s).trans up) (by simpa using none_offered) (produce_hwq stage)
    have first := turnOf_isr_of_requested (irqRx_of_staged up stage) inv.rxu.not_in_isr none_offered
    refine ⟨t, by rw [List.length_cons, turnsOf, first, andThen, run], ?_, empty, by rw [tail, produce_tail]⟩
    rw [ring, produce_cfg, ringFrames_produce inv stage, take_take_append, List.append_assoc]
    rfl

/-- Settles O24, by induction on the staged frames. -/
theorem interruptsFillTheRingInOrder : Obligations.InterruptsFillTheRingInOrder := fun _ inv up =>
  exists_turnsOf_isr { inv with } up rfl rfl

end Sys2Proof.Machine
end

section
/-! PROOFS. The transmit family, one equation for each branch of a meaning (R160 to R166): SEND by the mailbox it
chooses, TX_DONE by the mailbox it names. -/

namespace Sys2Proof.Machine

variable {s : State}

/-! ### SEND -/

theorem freeMailbox_eq_none_iff : freeMailbox s = none ↔ ∀ m ∈ s.txu.mailboxes, m.busy = true := by
  simp [freeMailbox]

theorem freeMailbox_eq_some_iff {i : Nat} : freeMailbox s = some i ↔
    ∃ hi : i < s.txu.mailboxes.length, s.txu.mailboxes[i].busy = false ∧
      ∀ j (hj : j < i), s.txu.mailboxes[j].busy = true := by
  simp [freeMailbox, List.findIdx?_eq_some_iff_getElem]

theorem exec_send_of_none {f : Frame} (up : s.rxu.linkUp = true) (short : f.len.toNat ≤ 8)
    (none_free : freeMailbox s = none) : exec (.send f) s = .next { s with ret := some (.sent false) } := by
  simp [exec, execSend, up, lenMax, short, none_free]

theorem exec_send_of_some {f : Frame} {i : Nat} (up : s.rxu.linkUp = true) (short : f.len.toNat ≤ 8)
    (free : freeMailbox s = some i) :
    exec (.send f) s = .next { loadMailbox i f s with ret := some (.sent true) } := by
  simp [exec, execSend, up, lenMax, short, free]

/-- Settles O30: the link flag, then the length, then the choice of the mailbox. -/
theorem sendCompletes : Obligations.SendCompletes := fun f s =>
  ⟨fun down => ((linkRefusals s).2 down).2 f,
    (operandRangeChecks s).1 f,
    fun up short busy => exec_send_of_none up short (freeMailbox_eq_none_iff.mpr busy),
    fun up short _ hi free below => exec_send_of_some up short (freeMailbox_eq_some_iff.mpr ⟨hi, free, below⟩),
    decodeOfEncode (.send f)⟩

/-- A loaded mailbox is busy, so the next free one above it is the choice after it. -/
theorem freeMailbox_loadMailbox {i j : Nat} (f : Frame) (hi : i < j) (hj : j < s.txu.mailboxes.length)
    (between : ∀ l (hl : l < j), l ≠ i → s.txu.mailboxes[l].busy = true) (free : s.txu.mailboxes[j].busy = false) :
    freeMailbox (loadMailbox i f s) = some j := by
  refine freeMailbox_eq_some_iff.mpr ⟨by simpa using hj, ?_, fun l hl => ?_⟩
  · simpa [List.getElem_set_ne hi.ne] using free
  · by_cases same : l = i
    · simp [same]
    · simpa [List.getElem_set_ne (Ne.symm same)] using between l hl same

/-- Settles O33: the first SEND takes `i`, which leaves `j` the lowest free mailbox. -/
theorem twoSendsTakeTheLowestTwo : Obligations.TwoSendsTakeTheLowestTwo := by
  intro f g s i j hi hj up short_f short_g between free_i free_j
  have first : freeMailbox s = some i := freeMailbox_eq_some_iff.mpr
    ⟨hi.trans hj, free_i, fun l hl => between l (hl.trans hi) hl.ne⟩
  have second : freeMailbox (loadMailbox i f s) = some j := freeMailbox_loadMailbox f hi hj between free_j
  exact ⟨_, _, exec_send_of_some up short_f first, rfl, exec_send_of_some up short_g second, rfl, rfl⟩

/-! ### TX_DONE -/

/-- Only the busy bit of the mailbox is written; its frame stays (R166 (1)). -/
theorem freeMailboxAt_eq {i : Nat} (hi : i < s.txu.mailboxes.length) :
    freeMailboxAt i s = { s with
      txu := { s.txu with mailboxes := s.txu.mailboxes.set i { s.txu.mailboxes[i] with busy := false } } } := by
  rw [freeMailboxAt, List.modify_eq_set_get _ hi, List.get_eq_getElem]

section

variable {i : BitVec 8} (present : i.toNat < s.cfg.nMailbox) (hi : i.toNat < s.txu.mailboxes.length)
include present hi

theorem exec_txDone_of_free (free : s.txu.mailboxes[i.toNat].busy = false) : exec (.txDone i) s = .next s := by
  simp [exec, execTxDone, present, hi, free]

theorem exec_txDone_of_busy (busy : s.txu.mailboxes[i.toNat].busy = true) :
    exec (.txDone i) s = .next (transmitted s.txu.mailboxes[i.toNat].frame (freeMailboxAt i.toNat s)) := by
  simp [exec, execTxDone, present, hi, busy]

theorem exists_exec_txDone_next : ∃ t, exec (.txDone i) s = .next t := by
  cases bit : s.txu.mailboxes[i.toNat].busy with
  | false => exact ⟨_, exec_txDone_of_free present hi bit⟩
  | true => exact ⟨_, exec_txDone_of_busy present hi bit⟩

end

theorem transmitted_of_normal (normal : s.rxu.loopback = false) (f : Frame) : transmitted f s = s := by
  simp [transmitted, normal]

theorem transmitted_of_loopback (loopback : s.rxu.loopback = true) (f : Frame) : transmitted f s = arrive f s := by
  simp [transmitted, loopback]

/-- Settles O32: the mailbox's range, its busy bit, then the loopback flag. -/
theorem txDoneCompletes : Obligations.TxDoneCompletes := by
  refine fun i s => ⟨(operandRangeChecks s).2.1 i, fun present hi => ⟨exec_txDone_of_free present hi,
    fun busy normal => ?_, fun busy loopback => ?_, exists_exec_txDone_next present hi⟩, decodeOfEncode (.txDone i)⟩
  · rw [exec_txDone_of_busy present hi busy, transmitted_of_normal (by simpa using normal), freeMailboxAt_eq hi]
  · rw [exec_txDone_of_busy present hi busy, transmitted_of_loopback (by simpa using loopback), freeMailboxAt_eq hi,
      exec_frameArrival]

end Sys2Proof.Machine
end

section
/-! PROOFS. The turn of an agent that holds (R30, R190, R242): it passes, but for a register operation that MAIN offers
while the engine is busy (R202). -/

namespace Sys2Proof.Machine

variable {s : State} {a : Agent}

theorem agentTurn_of_held (held : holds a s = true) (quiet : offersWhileBusy a s = false) :
    agentTurn a s = .next s := by
  simp [agentTurn, held, quiet]

theorem agentTurn_of_offersWhileBusy (held : holds a s = true) (busy : offersWhileBusy a s = true) :
    agentTurn a s = .refused .serialBusy := by
  simp [agentTurn, held, busy]

theorem offersWhileBusy_of_inIsr (isr : s.rxu.inIsr = true) (a : Agent) : offersWhileBusy a s = false := by
  cases a with
  | main => simp [offersWhileBusy, isr]
  | isr | bus | serialEnv | sre | chip => rfl

/-- A record given to an agent stands first in its list when the agent's turn comes. -/
theorem step_giveOffer_eq_agentTurn (r : Raw) :
    step (giveOffer a r s) = agentTurn a (setPending a (r :: s.inputs.pending a) s) := by
  rw [step_of_turn (s := giveOffer a r s) (u := .agent a) (ts := s.inputs.turns) (by cases a <;> rfl), takeTurn,
    setTurns_giveOffer]

theorem isRegisterOp_iff (i : Instr) :
    isRegisterOp i = true ↔ (∃ a v, i = .regWrite a v) ∨ ∃ a, i = .regRead a := by
  cases i <;> simp [isRegisterOp]

theorem offersRegisterOp_eq_false {r : Raw}
    (other : ∀ a v, decode r ≠ .ok (.regWrite a v) ∧ decode r ≠ .ok (.regRead a)) : offersRegisterOp r = false := by
  unfold offersRegisterOp
  split
  · rename_i i decoded
    rw [Bool.eq_false_iff, ne_eq, isRegisterOp_iff]
    rintro (⟨a, v, rfl⟩ | ⟨a, rfl⟩)
    · exact (other a v).1 decoded
    · exact (other a 0).2 decoded
  · rfl

theorem offersWhileBusy_main_eq_false (other : ∀ r ∈ s.inputs.main.head?, ∀ a v,
    decode r ≠ .ok (.regWrite a v) ∧ decode r ≠ .ok (.regRead a)) : offersWhileBusy .main s = false := by
  have none_offered : s.inputs.main.head?.any offersRegisterOp = false := by
    rw [Option.any_eq_false]
    exact fun r next => by simp [offersRegisterOp_eq_false (other r next)]
  simp [offersWhileBusy, none_offered]

/-- In SETTLE the SRE's turn passes, held or not. -/
theorem agentTurn_sre_of_settle (settle : s.sre.eng = .settle) : agentTurn .sre s = .next s := by
  cases held : holds .sre s with
  | true => exact agentTurn_of_held held rfl
  | false => rw [agentTurn_of_inMicroSteps held (by simp [inMicroSteps, settle]), microStep, sreMicro_of_settle settle]

/-- Settles O11, by the reason for which the turn passes. -/
theorem heldTurnsChangeNothing : Obligations.HeldTurnsChangeNothing := by
  rintro s ts (⟨turn, isr⟩ | ⟨turn, caller, other⟩ | ⟨turn, isr | settle⟩) <;> rw [step_of_turn turn, takeTurn]
  · exact agentTurn_of_held (by simp [holds, isr]) (offersWhileBusy_of_inIsr (by simpa using isr) _)
  · exact agentTurn_of_held (by simp [holds, caller]) (offersWhileBusy_main_eq_false other)
  · exact agentTurn_of_held (by simp [holds, isr]) rfl
  · exact agentTurn_sre_of_settle settle

end Sys2Proof.Machine
end

section
/-! PROOFS. The serial family, one equation for each branch of a meaning or a micro-step (R190 to R203): the register
operations' starts and refusals, the byte exchange, the end of a transaction, the settling delay, the lone datagram. -/

namespace Sys2Proof.Machine

variable {s : State}

/-! ### The start of a transaction -/

/-- With `cs` released the chip sees it rise (R194, R214). -/
theorem startTransaction_of_released (released : s.sre.cs = false) (ph : SrePhase) (b : DatagramBytes) :
    startTransaction ph b s = { s with
      sre := { s.sre with phase := ph, tx := b, k := 0, cs := true, eng := .put }, chip := s.chip.select } := by
  simp [startTransaction, setCs, released]

theorem exec_regWrite_of_idle (idle : s.sre.eng = .idle) (a : BitVec 8) (v : Word) : exec (.regWrite a v) s =
    .next (startTransaction .wr (writeDatagram (addrOperand a) v) (latchCaller (addrOperand a) s)) := by
  simp [exec, execRegWrite, idle]

theorem exec_regRead_of_idle (idle : s.sre.eng = .idle) (a : BitVec 8) : exec (.regRead a) s =
    .next (startTransaction .rd1 (readDatagram (addrOperand a)) (latchCaller (addrOperand a) s)) := by
  simp [exec, execRegRead, idle]

theorem exec_settleElapsed_of_settle (settle : s.sre.eng = .settle) :
    exec .settleElapsed s = .next (startTransaction .rd2 (readDatagram s.sre.addr) s) := by
  simp [exec, execSettleElapsed, settle]

/-- Settles O34: the start of a transaction with the write datagram, for the caller just latched. -/
theorem regWriteStarts : Obligations.RegWriteStarts := fun a v s idle released =>
  ⟨by rw [exec_regWrite_of_idle idle, startTransaction_of_released (s := latchCaller _ s) released]; rfl,
    decodeOfEncode (.regWrite a v)⟩

/-- Settles O35: the start of a transaction with the read datagram, for the caller just latched. -/
theorem regReadStarts : Obligations.RegReadStarts := fun a s idle released =>
  ⟨by rw [exec_regRead_of_idle idle, startTransaction_of_released (s := latchCaller _ s) released]; rfl,
    decodeOfEncode (.regRead a)⟩

/-- Settles O40: the start of a transaction with the read datagram of the address latched in phase 1. -/
theorem settleElapsedCompletes : Obligations.SettleElapsedCompletes := by
  refine fun s => ⟨fun settle released => ?_, fun other => ?_, decodeOfEncode .settleElapsed⟩
  · rw [exec_settleElapsed_of_settle settle, startTransaction_of_released released]
    rfl
  · simp [exec, execSettleElapsed, other]

/-! ### The busy engine -/

section

variable (busy : s.sre.eng ≠ .idle)
include busy

theorem exec_regWrite_of_busy (a : BitVec 8) (v : Word) : exec (.regWrite a v) s = .refused .serialBusy := by
  simp [exec, execRegWrite, busy]

theorem exec_regRead_of_busy (a : BitVec 8) : exec (.regRead a) s = .refused .serialBusy := by
  simp [exec, execRegRead, busy]

theorem exec_dgramWrite_of_busy (a : ChipAddr) (v : Word) : exec (.dgramWrite a v) s = .refused .serialBusy := by
  simp [exec, execDgramWrite, busy]

theorem exec_dgramRead_of_busy (a : ChipAddr) : exec (.dgramRead a) s = .refused .serialBusy := by
  simp [exec, execDgramRead, busy]

theorem exec_registerOp_of_busy {i : Instr} (registerOp : isRegisterOp i = true) :
    exec i s = .refused .serialBusy := by
  obtain ⟨a, v, rfl⟩ | ⟨a, rfl⟩ := (isRegisterOp_iff i).mp registerOp
  · exact exec_regWrite_of_busy busy a v
  · exact exec_regRead_of_busy busy a

/-- MAIN blocked refuses at its hold (log entry 7), MAIN free at the instruction's own check. -/
theorem issue_registerOp_of_busy {i : Instr} (registerOp : isRegisterOp i = true) (outside : s.rxu.inIsr = false)
    (free : s.rxu.rxBusy = false) : step (giveOffer .main (encode i) s) = .refused .serialBusy := by
  have issuer : i.issuer = .main := by
    obtain ⟨a, v, rfl⟩ | ⟨a, rfl⟩ := (isRegisterOp_iff i).mp registerOp <;> rfl
  cases caller : s.sre.callerWaiting with
  | true =>
    have held : holds .main s = true := by simp [holds, caller]
    have offers : offersWhileBusy .main (setPending .main (encode i :: s.inputs.main) s) = true := by
      simp [offersWhileBusy, outside, caller, busy, Inputs.setPending, offersRegisterOp, decodeOfEncode i, registerOp]
    rw [step_giveOffer_eq_agentTurn]
    exact agentTurn_of_offersWhileBusy ((holds_setPending ..).trans held) offers
  | false =>
    have ready : holds .main s = false := by simp [holds, outside, caller]
    rw [step_giveOffer (a := .main) _ ready free, offer_of_decode (decodeOfEncode i) issuer]
    exact exec_registerOp_of_busy (s := markStep .main s) busy registerOp

end

/-- Settles O36, by the operation offered. -/
theorem busyEngineRefuses : Obligations.BusyEngineRefuses := fun _ busy =>
  ⟨fun outside free a v => ⟨issue_registerOp_of_busy (i := .regWrite a v) busy rfl outside free,
      issue_registerOp_of_busy (i := .regRead a) busy rfl outside free⟩,
    exec_regWrite_of_busy busy, exec_regRead_of_busy busy, exec_dgramWrite_of_busy busy, exec_dgramRead_of_busy busy⟩

/-! ### The byte exchange -/

theorem xchgPut_of_ready (put : s.sre.eng = .put) (txe : s.sre.txe = true) :
    xchgPut s = { s with sre := { s.sre with txdr := s.sre.tx[s.sre.k], txe := false, eng := .get } } := by
  simp [xchgPut, put, txe]

theorem xchgPut_of_not_ready (txe : s.sre.txe = false) : xchgPut s = s := by
  simp [xchgPut, txe]

theorem xchgGet_of_not_ready (rxne : s.sre.rxne = false) : xchgGet s = s := by
  simp [xchgGet, rxne]

theorem xchgGet_of_more (get : s.sre.eng = .get) (rxne : s.sre.rxne = true) (more : s.sre.k.val < 4) :
    xchgGet s = { takeReply s with sre := { (takeReply s).sre with k := s.sre.k + 1, eng := .put } } := by
  simp [xchgGet, get, rxne, more]

theorem xchgGet_of_last (get : s.sre.eng = .get) (rxne : s.sre.rxne = true) (last : s.sre.k = 4) :
    xchgGet s = endTransaction (takeReply s) := by
  simp [xchgGet, get, rxne, last]

/-- Before the last byte the byte counter does not wrap. -/
theorem byteIndex_add_one {k : Fin 5} (more : k.val < 4) : k + 1 = ⟨k.val + 1, by omega⟩ :=
  Fin.ext (by rw [Fin.val_add_one_of_lt (by simpa [Fin.lt_def] using more)])

/-- Settles O37, by micro-step and readiness flag. -/
theorem byteExchangeMicroSteps : Obligations.ByteExchangeMicroSteps := by
  refine fun s => ⟨xchgPut_of_ready, fun _ => xchgPut_of_not_ready, fun more get rxne => ?_,
    fun _ => xchgGet_of_not_ready⟩
  rw [xchgGet_of_more get rxne more, byteIndex_add_one more]
  rfl

theorem exec_spiShift_of_enabled (enabled : shiftEnabled s = true) (r : Byte) :
    exec (.spiShift r) s = .next (shiftByte r s) := by
  simp [exec, execSpiShift, enabled]

theorem exec_spiShift_of_not_enabled (waiting : shiftEnabled s = false) (r : Byte) :
    exec (.spiShift r) s = .next s := by
  simp [exec, execSpiShift, waiting]

/-- Settles O38, by the three conditions of R192. -/
theorem spiShiftCompletes : Obligations.SpiShiftCompletes := by
  refine fun r s => ⟨fun cs txe rxne => ?_, fun waiting => ?_, decodeOfEncode (.spiShift r)⟩
  · rw [exec_spiShift_of_enabled (by simp [shiftEnabled, cs, txe, rxne])]
    rfl
  · refine exec_spiShift_of_not_enabled ?_ r
    obtain h | h | h := waiting <;> simp [shiftEnabled, h]

/-! ### The end of a transaction -/

section

variable (asserted : s.sre.cs = true)
include asserted

theorem endTransaction_of_wr (wr : s.sre.phase = .wr) : endTransaction s = { s with
    sre := { s.sre with cs := false, eng := .idle, callerWaiting := false }
    chip := s.chip.release, ret := some .written } := by
  simp [endTransaction, setCs, resumeCaller, wr, asserted]

theorem endTransaction_of_rd1 (rd1 : s.sre.phase = .rd1) : endTransaction s = { s with
    sre := { s.sre with cs := false, eng := .settle }, chip := s.chip.release } := by
  simp [endTransaction, setCs, rd1, asserted]

theorem endTransaction_of_rd2 (rd2 : s.sre.phase = .rd2) : endTransaction s = { s with
    sre := { s.sre with cs := false, eng := .idle, callerWaiting := false, result := wordOfReply s.sre.rx }
    chip := s.chip.release, ret := some (.readValue (wordOfReply s.sre.rx)) } := by
  simp [endTransaction, setCs, resumeCaller, rd2, asserted]

end

theorem takeReply_of_last (last : s.sre.k = 4) :
    takeReply s = { s with sre := { s.sre with rx := s.sre.rx.set 4 s.sre.rxdr, rxne := false } } := by
  simp [takeReply, last]

/-- Settles O39: the last reply is taken, then the end is the phase's. -/
theorem transactionEnds : Obligations.TransactionEnds := by
  intro s get rxne last asserted
  rw [xchgGet_of_last get rxne last]
  refine ⟨fun wr => ?_, fun rd1 => ?_, fun rd2 => ?_⟩
  · rw [endTransaction_of_wr (s := takeReply s) asserted wr, takeReply_of_last last]
  · rw [endTransaction_of_rd1 (s := takeReply s) asserted rd1, takeReply_of_last last]
  · rw [endTransaction_of_rd2 (s := takeReply s) asserted rd2, takeReply_of_last last]
    rfl

/-! ### The lone datagram -/

theorem writeDatagram_eq (a : ChipAddr) (v : Word) : writeDatagram a v = datagramBytes (1#1 ++ a ++ v) := by
  rw [← datagramOfBytes_write, datagramBytes_ofBytes]

theorem readDatagram_eq (a : ChipAddr) : readDatagram a = datagramBytes (0#1 ++ a ++ 0#32) := by
  rw [← datagramOfBytes_read, datagramBytes_ofBytes]

theorem exec_dgramWrite_of_idle (idle : s.sre.eng = .idle) (a : ChipAddr) (v : Word) :
    exec (.dgramWrite a v) s = .next (wholeTransaction (writeDatagram a v) (drawReplies s) s) := by
  simp [exec, execDgramWrite, idle]

theorem exec_dgramRead_of_idle (idle : s.sre.eng = .idle) (a : ChipAddr) :
    exec (.dgramRead a) s = .next (wholeTransaction (readDatagram a) (drawReplies s) s) := by
  simp [exec, execDgramRead, idle]

/-- Settles O48: what the whole datagram does to the chip; the rest is the frame of one whole transaction. -/
theorem loneDatagramsComplete : Obligations.LoneDatagramsComplete := by
  refine fun a v s idle => ⟨⟨_, exec_dgramWrite_of_idle idle a v, ?_⟩, ⟨_, exec_dgramRead_of_idle idle a, ?_⟩⟩
  · simp [Chip.datagram_write, Chip.writeReg, ← writeDatagram_eq, idle]
  · simp [Chip.datagram_read, Chip.latchReg, ← readDatagram_eq, idle]

end Sys2Proof.Machine
end

section
/-! PROOFS. The link units and the serial engine do not touch each other (R44, R78, R205). -/

namespace Sys2Proof.Machine

variable {s t : State}

@[simp] theorem produce_chip (s : State) : (produce s).chip = s.chip := by rw [produce_eq]
@[simp] theorem produce_txu (s : State) : (produce s).txu = s.txu := by rw [produce_eq]
@[simp] theorem produce_ret (s : State) : (produce s).ret = s.ret := by rw [produce_eq]

@[simp] theorem transmitted_chip (f : Frame) (s : State) : (transmitted f s).chip = s.chip := by
  obtain ⟨e, -⟩ | ⟨e, -⟩ := transmitted_cases f s <;> simp [e]

/-- The operations and events of the link: LINK_INIT, RECEIVE, SEND, and what the ISR and the bus issue. -/
def IsLinkInstr (i : Instr) : Prop :=
  i.issuer = .isr ∨ i.issuer = .bus ∨ (∃ lb, i = .linkInit lb) ∨ (∃ n, i = .receive n) ∨ ∃ f, i = .send f

/-- The register operations, the serial events and the lone datagrams. -/
def IsSerialInstr (i : Instr) : Prop :=
  i.issuer = .serialEnv ∨ i.issuer = .sre ∨ (∃ a v, i = .regWrite a v) ∨ ∃ a, i = .regRead a

theorem exec_link_frame {i : Instr} (link : IsLinkInstr i) (run : exec i s = .next t) :
    t.sre = s.sre ∧ t.chip = s.chip := by
  cases i with
  | linkInit lb => obtain ⟨-, rfl⟩ := execLinkInit_next run; exact ⟨rfl, rfl⟩
  | receive n => obtain ⟨-, rfl⟩ := execReceive_next run; exact ⟨rfl, rfl⟩
  | send f => obtain ⟨-, -, ⟨-, rfl⟩ | ⟨j, -, rfl⟩⟩ := execSend_next run <;> exact ⟨rfl, rfl⟩
  | rxIsr => obtain ⟨-, rfl⟩ | ⟨-, rfl⟩ := execRxIsr_next run <;> simp
  | frameArrival f => obtain rfl := execFrameArrival_next run; simp
  | txDone j => obtain ⟨-, rfl | ⟨m, -, -, rfl⟩⟩ := execTxDone_next run <;> simp
  | regWrite a v | regRead a | spiShift r | settleElapsed | dgramWrite a v | dgramRead a =>
    simp [IsLinkInstr, Instr.issuer] at link

theorem exec_serial_frame {i : Instr} (serial : IsSerialInstr i) (run : exec i s = .next t) :
    t.rxu = s.rxu ∧ t.txu = s.txu := by
  cases i with
  | regWrite a v => obtain ⟨-, rfl⟩ := execRegWrite_next run; exact ⟨rfl, rfl⟩
  | regRead a => obtain ⟨-, rfl⟩ := execRegRead_next run; exact ⟨rfl, rfl⟩
  | spiShift r => obtain ⟨-, rfl⟩ | ⟨-, rfl⟩ := execSpiShift_next run <;> exact ⟨rfl, rfl⟩
  | settleElapsed => obtain ⟨-, rfl⟩ | ⟨-, rfl⟩ := execSettleElapsed_next run <;> exact ⟨rfl, rfl⟩
  | dgramWrite a v => obtain ⟨-, rfl⟩ := execDgramWrite_next run; exact ⟨rfl, rfl⟩
  | dgramRead a => obtain ⟨-, rfl⟩ := execDgramRead_next run; exact ⟨rfl, rfl⟩
  | linkInit lb | receive n | send f | rxIsr | frameArrival f | txDone j =>
    simp [IsSerialInstr, Instr.issuer] at serial

theorem exec_rxIsr_frame (run : exec .rxIsr s = .next t) :
    t.sre = s.sre ∧ t.chip = s.chip ∧ t.txu = s.txu ∧ t.ret = s.ret := by
  obtain ⟨-, rfl⟩ | ⟨-, rfl⟩ := execRxIsr_next run <;> simp

/-- Settles O46: the frames of the link's instructions, of the serial ones and of the micro-steps. -/
theorem unitsAreIndependent : Obligations.UnitsAreIndependent :=
  ⟨fun _ _ _ => exec_link_frame, fun _ => ⟨rxPop_sre, rxPop_chip⟩, fun _ _ => exec_rxIsr_frame,
    fun _ _ _ => exec_serial_frame, fun _ => ⟨sreMicro_rxu, sreMicro_txu⟩⟩

end Sys2Proof.Machine
end

section
/-! PROOFS. The reference chip in step with the transaction in flight (R194, R213, R214): each step keeps it, and the
datagram that ends has been delivered whole (R90, R215). -/

namespace Sys2Proof.Machine

variable {s t : State}

/-! ### One lemma for each operation -/

/-- Only the serial engine and the chip are looked at. -/
theorem ChipInStep.congr (h : ChipInStep s) (sre : t.sre = s.sre) (chip : t.chip = s.chip) : ChipInStep t := by
  simpa only [ChipInStep, sre, chip] using h

theorem ChipInStep.of_not_exchanging (eng : s.sre.eng = .idle ∨ s.sre.eng = .settle) : ChipInStep s := by
  obtain eng | eng := eng <;> simp [ChipInStep, eng]

theorem ChipInStep.of_put (h : ChipInStep s) (put : s.sre.eng = .put) :
    s.chip.count = s.sre.k.val ∧ ∀ j < s.sre.k.val, s.chip.inBuf[j]? = s.sre.tx[j]? := by
  simpa [ChipInStep, put] using h

theorem ChipInStep.of_get (h : ChipInStep s) (get : s.sre.eng = .get) :
    s.chip.count = s.sre.k.val + s.sre.rxne.toNat ∧ (s.sre.rxne = false → s.sre.txdr = s.sre.tx[s.sre.k]) ∧
      ∀ j < s.sre.k.val + s.sre.rxne.toNat, s.chip.inBuf[j]? = s.sre.tx[j]? := by
  simpa [ChipInStep, get] using h

/-- A transaction starts with no byte counted: the chip has just seen `cs` rise. -/
theorem ChipInStep.start (released : s.sre.cs = false) (ph : SrePhase) (b : DatagramBytes) :
    ChipInStep (startTransaction ph b s) := by
  simp [startTransaction_of_released released, ChipInStep, Chip.select]

theorem ChipInStep.xchgPut (h : ChipInStep s) (sre : SreInv s.sre) : ChipInStep (xchgPut s) := by
  obtain ⟨e, -⟩ | ⟨e, put, -⟩ := xchgPut_cases s <;> rw [e]
  · exact h
  · obtain ⟨-, -, rxne, -⟩ := sre.of_put put
    simpa [ChipInStep, rxne] using h.of_put put

/-- The byte shifted is the one that the count stands at. -/
theorem ChipInStep.shiftByte (h : ChipInStep s) (get : s.sre.eng = .get) (rxne : s.sre.rxne = false) (r : Byte) :
    ChipInStep (shiftByte r s) := by
  obtain ⟨count, txdr, bytes⟩ := h.of_get get
  simp only [rxne, Bool.toNat_false, Nat.add_zero] at count bytes
  have in_buffer : ∀ j < s.sre.k.val + 1, (s.chip.shift s.sre.txdr).inBuf[j]? = s.sre.tx[j]? := by
    intro j hj
    rw [Chip.shift, count, txdr rxne]
    by_cases last : s.sre.k.val = j
    · subst last
      simp
    · rw [Vector.getElem?_setIfInBounds_ne last]
      exact bytes j (by omega)
  simpa [ChipInStep, get, Chip.shift, count] using in_buffer

theorem ChipInStep.xchgGet (h : ChipInStep s) : ChipInStep (xchgGet s) := by
  obtain ⟨e, -⟩ | ⟨get, rxne, more, e⟩ | ⟨-, -, -, e⟩ := xchgGet_cases s <;> rw [e]
  · exact h
  · obtain ⟨count, -, bytes⟩ := h.of_get get
    rw [byteIndex_add_one more]
    simpa [ChipInStep, rxne] using And.intro count bytes
  · obtain ⟨-, e⟩ | ⟨-, e⟩ | ⟨-, e⟩ := endTransaction_cases (takeReply s) <;> rw [e]
    · exact .of_not_exchanging (.inl rfl)
    · exact .of_not_exchanging (.inr rfl)
    · exact .of_not_exchanging (.inl rfl)

theorem ChipInStep.sreMicro (h : ChipInStep s) (sre : SreInv s.sre) : ChipInStep (sreMicro s) := by
  obtain e | ⟨-, -, e⟩ | ⟨-, -, e⟩ := sreMicro_cases s <;> rw [e]
  · exact h
  · exact h.xchgPut sre
  · exact h.xchgGet

/-! ### The step -/

theorem exec_chipInStep {i : Instr} (run : exec i s = .next t) (h : ChipInStep s) (sre : SreInv s.sre) :
    ChipInStep t := by
  cases i with
  | linkInit lb | receive n | send f | rxIsr | frameArrival j | txDone j =>
    obtain ⟨same_sre, same_chip⟩ := exec_link_frame (by simp [IsLinkInstr, Instr.issuer]) run
    exact h.congr same_sre same_chip
  | regWrite a v =>
    obtain ⟨idle, rfl⟩ := execRegWrite_next run
    exact .start (s := latchCaller _ s) (sre.of_idle idle).1 ..
  | regRead a =>
    obtain ⟨idle, rfl⟩ := execRegRead_next run
    exact .start (s := latchCaller _ s) (sre.of_idle idle).1 ..
  | spiShift r =>
    obtain ⟨-, rfl⟩ | ⟨enabled, rfl⟩ := execSpiShift_next run
    · exact h
    · have rxne : s.sre.rxne = false := by simp_all [shiftEnabled]
      exact h.shiftByte (sre.eng_of_shiftEnabled enabled) rxne r
  | settleElapsed =>
    obtain ⟨-, rfl⟩ | ⟨settle, rfl⟩ := execSettleElapsed_next run
    · exact h
    · exact .start (sre.of_settle settle).1 ..
  | dgramWrite a v => obtain ⟨idle, rfl⟩ := execDgramWrite_next run; exact .of_not_exchanging (.inl idle)
  | dgramRead a => obtain ⟨idle, rfl⟩ := execDgramRead_next run; exact .of_not_exchanging (.inl idle)

/-- Settles O51: the case analysis of a step; the link's instructions and the drain leave engine and chip alone. -/
theorem stepKeepsChipInStep : Obligations.StepKeepsChipInStep := by
  intro s t inv h run
  obtain ⟨n, -, c⟩ := step_cases run
  have moved : ChipInStep { s with inputs := n } := h.congr rfl rfl
  cases c with
  | stay eq => rwa [eq]
  | pop ready busy eq => rw [eq]; exact moved.congr rxPop_sre rxPop_chip
  | micro eq => rw [eq]; exact moved.sreMicro inv.sre
  | run i m turn ready free mark eq =>
    exact exec_chipInStep (s := { s with inputs := n, mainStepped := m }) eq (h.congr rfl rfl) inv.sre
  | reset turn eq => rw [eq]; exact .of_not_exchanging (.inl rfl)

/-! ### The end of a transaction -/

theorem Chip.release_write {c : Chip} {a : ChipAddr} {v : Word} (five : c.count = 5)
    (bytes : c.inBuf = writeDatagram a v) : c.release = c.writeReg a v := by
  rw [Chip.release_of_five c five, bytes]
  simp only [writeDatagram, msbFirst_zero, wordOfReply_msbFirst, writeDatagram_head, if_true]

theorem Chip.release_read {c : Chip} {a : ChipAddr} (five : c.count = 5) (bytes : c.inBuf = readDatagram a) :
    c.release = c.latchReg a := by
  rw [Chip.release_of_five c five, bytes]
  simp [readDatagram, readDatagram_head]

/-- Before its last XCHG_GET the chip holds the five bytes of the datagram. -/
theorem ChipInStep.all_bytes (h : ChipInStep s) (get : s.sre.eng = .get) (rxne : s.sre.rxne = true)
    (last : s.sre.k = 4) : s.chip.count = 5 ∧ s.chip.inBuf = s.sre.tx := by
  obtain ⟨count, -, bytes⟩ := h.of_get get
  rw [rxne, last] at count bytes
  refine ⟨count, Vector.ext fun j hj => ?_⟩
  simpa [hj] using bytes j hj

theorem xchgGet_chip_of_last (get : s.sre.eng = .get) (rxne : s.sre.rxne = true) (last : s.sre.k = 4)
    (asserted : s.sre.cs = true) : (xchgGet s).chip = s.chip.release := by
  rw [xchgGet_of_last get rxne last]
  obtain ⟨-, e⟩ | ⟨-, e⟩ | ⟨-, e⟩ := endTransaction_cases (takeReply s) <;> rw [e] <;> simp [asserted]

/-- Settles O52: the release, with the datagram's five bytes in the chip's buffer. -/
theorem transactionDeliversItsDatagram : Obligations.TransactionDeliversItsDatagram := by
  intro s a v inv h get rxne last
  obtain ⟨five, bytes⟩ := h.all_bytes get rxne last
  rw [xchgGet_chip_of_last get rxne last (inv.sre.of_get get).1]
  exact ⟨fun write => Chip.release_write five (bytes.trans write),
    fun read => Chip.release_read five (bytes.trans read)⟩

end Sys2Proof.Machine
end

section
/-! PROOFS. A stuck serial link (R190, R204): without SPI_SHIFT or a node reset the engine waits for ever. -/

namespace Sys2Proof.Machine

variable {s t : State}

@[simp] theorem transmitted_inputs (f : Frame) (s : State) : (transmitted f s).inputs = s.inputs := by
  obtain ⟨e, -⟩ | ⟨e, -⟩ := transmitted_cases f s <;> simp [e]

/-- No meaning writes the schedule or an agent's list. -/
theorem exec_inputs {i : Instr} (run : exec i s = .next t) : t.inputs = s.inputs := by
  cases i with
  | linkInit lb => obtain ⟨-, rfl⟩ := execLinkInit_next run; rfl
  | receive n => obtain ⟨-, rfl⟩ := execReceive_next run; rfl
  | send f => obtain ⟨-, -, ⟨-, rfl⟩ | ⟨j, -, rfl⟩⟩ := execSend_next run <;> rfl
  | regWrite a v => obtain ⟨-, rfl⟩ := execRegWrite_next run; rfl
  | regRead a => obtain ⟨-, rfl⟩ := execRegRead_next run; rfl
  | rxIsr => obtain ⟨-, rfl⟩ | ⟨-, rfl⟩ := execRxIsr_next run <;> simp
  | frameArrival f => obtain rfl := execFrameArrival_next run; simp
  | txDone j => obtain ⟨-, rfl | ⟨m, -, -, rfl⟩⟩ := execTxDone_next run <;> simp
  | spiShift r => obtain ⟨-, rfl⟩ | ⟨-, rfl⟩ := execSpiShift_next run <;> rfl
  | settleElapsed => obtain ⟨-, rfl⟩ | ⟨-, rfl⟩ := execSettleElapsed_next run <;> rfl
  | dgramWrite a v => obtain ⟨-, rfl⟩ := execDgramWrite_next run; rfl
  | dgramRead a => obtain ⟨-, rfl⟩ := execDgramRead_next run; rfl

/-- Every step takes its turn off the schedule and changes nothing else of it. -/
theorem step_turns (run : step s = .next t) : t.inputs.turns = s.inputs.turns.tail := by
  obtain ⟨n, turns, c⟩ := step_cases run
  have inputs : t.inputs = n := by
    cases c with
    | stay eq => rw [eq]
    | pop _ _ eq => rw [eq, rxPop_inputs]
    | micro eq => rw [eq, sreMicro_inputs]
    | run i m _ _ _ _ eq => rw [exec_inputs eq]
    | reset _ eq => rw [eq, nodeReset_inputs]
  rw [inputs, turns]

theorem sreMicro_of_waiting (get : s.sre.eng = .get) (rxne : s.sre.rxne = false) : sreMicro s = s := by
  obtain e | ⟨-, put, -⟩ | ⟨-, -, e⟩ := sreMicro_cases s
  · exact e
  · simp [get] at put
  · rw [e, xchgGet_of_not_ready rxne]

/-- Of the instructions only SPI_SHIFT, which SERIAL_ENV issues, ends the engine's wait in GET. -/
theorem exec_sre_of_get {i : Instr} (run : exec i s = .next t) (get : s.sre.eng = .get)
    (other : i.issuer ≠ .serialEnv) : t.sre = s.sre := by
  cases exec_sreCase run with
  | same eq => exact eq
  | regWrite _ _ _ idle _ | regRead _ _ idle _ | lone _ _ idle _ => simp [get] at idle
  | shift r instr _ _ => exact absurd (by rw [instr]; rfl) other
  | settleElapsed instr _ _ => exact absurd (by rw [instr]; rfl) other

theorem step_sre_of_waiting (run : step s = .next t) (get : s.sre.eng = .get) (rxne : s.sre.rxne = false)
    (turns : ∀ u ∈ s.inputs.turns, u ≠ .agent .serialEnv ∧ u ≠ .nodeReset) : t.sre = s.sre := by
  obtain ⟨n, -, c⟩ := step_cases run
  cases c with
  | stay eq => rw [eq]
  | pop _ _ eq => rw [eq, rxPop_sre]
  | micro eq => rw [eq, sreMicro_of_waiting (s := { s with inputs := n }) get rxne]
  | run i m turn _ _ _ eq =>
    have other : i.issuer ≠ .serialEnv := fun issuer =>
      (turns _ (List.mem_of_head? turn)).1 (by rw [issuer])
    exact exec_sre_of_get (s := { s with inputs := n, mainStepped := m }) eq get other
  | reset turn _ => exact absurd rfl (turns _ (List.mem_of_head? turn)).2

theorem andThen_eq_next_iff {o : Host.Outcome State Fault Refusal} {f : State → Host.Outcome State Fault Refusal} :
    andThen o f = .next t ↔ ∃ u, o = .next u ∧ f u = .next t := by
  cases o <;> simp [andThen]

theorem runFor_sre_of_waiting {n : Nat} (run : runFor n s = .next t) (get : s.sre.eng = .get)
    (rxne : s.sre.rxne = false) (turns : ∀ u ∈ s.inputs.turns, u ≠ .agent .serialEnv ∧ u ≠ .nodeReset) :
    t.sre = s.sre := by
  induction n generalizing s with
  | zero => cases run; rfl
  | succ n ih =>
    obtain ⟨u, first, rest⟩ := andThen_eq_next_iff.mp run
    have same := step_sre_of_waiting first get rxne turns
    rw [← same] at get rxne
    exact (ih rest get rxne fun v hv => turns v (List.mem_of_mem_tail (step_turns first ▸ hv))).trans same

/-- Settles O47: by induction on the run the engine is the one it began with. -/
theorem stuckLinkHangs : Obligations.StuckLinkHangs := by
  intro n s t inv get rxne turns run
  obtain ⟨-, -, caller⟩ := inv.sre.of_get get
  rw [runFor_sre_of_waiting run get rxne turns]
  exact ⟨get, rxne, caller⟩

end Sys2Proof.Machine
end

section
/-! PROOFS. The bytes of a datagram at the reference chip, and its replies (R211, R214, R217). -/

namespace Sys2Proof.Machine

/-- The chip after the first `n` bytes of `b`. -/
def Chip.received (b : DatagramBytes) : Nat → Chip → Chip
  | 0, c => c
  | n + 1, c => (c.received b n).shift (b[n]?.getD 0)

theorem Chip.datagram_eq_received (b : DatagramBytes) (c : Chip) :
    c.datagram b = (c.select.received b 5).release := by
  simp [Chip.received, Chip.datagram]

@[simp] theorem Chip.received_count (b : DatagramBytes) (n : Nat) (c : Chip) :
    (c.received b n).count = c.count + n := by
  induction n with
  | zero => rfl
  | succ n ih => rw [Chip.received, Chip.shift, ih, Nat.add_assoc]

@[simp] theorem Chip.received_outWord (b : DatagramBytes) (n : Nat) (c : Chip) :
    (c.received b n).outWord = c.outWord := by
  induction n with
  | zero => rfl
  | succ n ih => exact ih

/-- After the status byte the chip shifts out the data word latched before the datagram, most significant byte first. -/
theorem Chip.reply_received_select (b : DatagramBytes) (st : Byte) (c : Chip) {n : Nat} (hn : n < 5) :
    (c.select.received b n).reply st = (msbFirst st c.dataWord)[n] := by
  have cases_n : n = 0 ∨ n = 1 ∨ n = 2 ∨ n = 3 ∨ n = 4 := by omega
  obtain rfl | rfl | rfl | rfl | rfl := cases_n <;> simp [Chip.reply, Chip.select, msbFirst]

theorem Chip.dataWord_datagram_read (a : ChipAddr) (c : Chip) :
    (c.datagram (readDatagram a)).dataWord = c.regs[a.toNat]'a.isLt := by
  rw [Chip.datagram_read, Chip.latchReg]

/-- Settles O45: the read datagram of `a` latches `a`'s register, which the next datagram shifts out. -/
theorem singleReadIsStale : Obligations.SingleReadIsStale := by
  intro a b st c
  have reply (n : Nat) (hn : n < 5) :
      ((c.datagram (readDatagram a)).select.received (readDatagram b) n).reply st =
        (msbFirst st (c.regs[a.toNat]'a.isLt))[n] := by
    rw [Chip.reply_received_select _ st _ hn, Chip.dataWord_datagram_read]
  refine ⟨⟨reply 0 (by omega), reply 1 (by omega), reply 2 (by omega), reply 3 (by omega), reply 4 (by omega)⟩, ?_⟩
  simp [Chip.datagram_read, Chip.latchReg]

end Sys2Proof.Machine
end

section
/-! PROOFS. A whole transaction (R194, R201): five byte exchanges give the chip the datagram and collect the replies. -/

namespace Sys2Proof.Machine

variable {s t u : State}

/-! ### Turns and records of a run -/

theorem inv_of_turnOf {a : Agent} (inv : Inv s) (run : turnOf a s = .next t) : Inv t :=
  stepKeepsInv (giveTurn a s) t { inv with } run

theorem inv_of_issue {i : Instr} (inv : Inv s) (run : issue i s = .next t) : Inv t :=
  stepKeepsInv (giveOffer i.issuer (encode i) s) t { inv with } run

theorem inv_of_exchange {reply : State → Byte} (inv : Inv s) (run : exchange reply s = .next t) : Inv t := by
  obtain ⟨u, put, rest⟩ := andThen_eq_next_iff.mp run
  obtain ⟨w, shift, get⟩ := andThen_eq_next_iff.mp rest
  exact inv_of_turnOf (inv_of_issue (inv_of_turnOf inv put) shift) get

theorem inv_of_exchanges {reply : Nat → State → Byte} {j n : Nat} (inv : Inv s)
    (run : exchanges reply j n s = .next t) : Inv t := by
  induction n generalizing s j with
  | zero => cases run; exact inv
  | succ n ih =>
    obtain ⟨u, first, rest⟩ := andThen_eq_next_iff.mp run
    exact ih (inv_of_exchange inv first) rest

/-- SERIAL_ENV never holds and is never inside an operation. -/
theorem issue_of_serialEnv {i : Instr} (issuer : i.issuer = .serialEnv) : issue i s = exec i s := by
  rw [issue_of_free (by rw [issuer]; rfl) (by rw [issuer]; rfl), issuer, markStep_of_ne_main (by decide)]

theorem holds_sre_of_busy (inv : Inv s) (busy : s.sre.eng ≠ .idle) : holds .sre s = false := by
  simp [holds, inv.mainStepped_of_eng busy, inv.rxu.not_in_isr]

theorem turnOf_sre_of_put (inv : Inv s) (put : s.sre.eng = .put) : turnOf .sre s = .next (xchgPut s) := by
  have ready := holds_sre_of_busy inv (by simp [put])
  rw [turnOf_eq_agentTurn, agentTurn_of_inMicroSteps ready (by simp [inMicroSteps, put]), microStep,
    sreMicro_of_put ready put]

theorem turnOf_sre_of_get (inv : Inv s) (get : s.sre.eng = .get) : turnOf .sre s = .next (xchgGet s) := by
  have ready := holds_sre_of_busy inv (by simp [get])
  rw [turnOf_eq_agentTurn, agentTurn_of_inMicroSteps ready (by simp [inMicroSteps, get]), microStep,
    sreMicro_of_get ready get]

/-! ### One byte exchange -/

/-- Byte `k` handed over and shifted, and the reply `r` taken, before the engine moves on (R191 to R193). -/
def afterByte (r : Byte) (s : State) : State :=
  { s with
    sre := { s.sre with txdr := s.sre.tx[s.sre.k], rxdr := r, rx := s.sre.rx.set s.sre.k r, eng := .get }
    chip := s.chip.shift s.sre.tx[s.sre.k] }

/-- The engine moves on to the next byte (R193). -/
def nextByte (s : State) : State := { s with sre := { s.sre with k := s.sre.k + 1, eng := .put } }

theorem nextByte_k (more : s.sre.k.val < 4) : (nextByte s).sre.k.val = s.sre.k.val + 1 := by
  rw [nextByte, byteIndex_add_one more]

section

variable (inv : Inv s) (put : s.sre.eng = .put)
include inv put

theorem xchgPut_of_inv :
    xchgPut s = { s with sre := { s.sre with txdr := s.sre.tx[s.sre.k], txe := false, eng := .get } } :=
  xchgPut_of_ready put (inv.sre.of_put put).2.1

theorem shiftEnabled_xchgPut : shiftEnabled (xchgPut s) = true := by
  obtain ⟨cs, -, rxne, -⟩ := inv.sre.of_put put
  simp [xchgPut_of_inv inv put, shiftEnabled, cs, rxne]

theorem takeReply_shiftByte_xchgPut (r : Byte) : takeReply (shiftByte r (xchgPut s)) = afterByte r s := by
  obtain ⟨-, txe, rxne, -⟩ := inv.sre.of_put put
  simp [xchgPut_of_inv inv put, takeReply, shiftByte, afterByte, txe, rxne]

theorem eng_shiftByte_xchgPut (r : Byte) : (shiftByte r (xchgPut s)).sre.eng = .get := by
  rw [xchgPut_of_inv inv put, shiftByte_sre]

theorem k_shiftByte_xchgPut (r : Byte) : (shiftByte r (xchgPut s)).sre.k = s.sre.k := by
  rw [xchgPut_of_inv inv put, shiftByte_sre]

/-- The three turns of an exchange are XCHG_PUT, SPI_SHIFT and XCHG_GET; none of them holds. -/
theorem exchange_of_put (reply : State → Byte) :
    exchange reply s = .next (xchgGet (shiftByte (reply (xchgPut s)) (xchgPut s))) := by
  have put_turn := turnOf_sre_of_put inv put
  have shift (r : Byte) : issue (.spiShift r) (xchgPut s) = .next (shiftByte r (xchgPut s)) := by
    rw [issue_of_serialEnv rfl, exec_spiShift_of_enabled (shiftEnabled_xchgPut inv put)]
  rw [exchange, put_turn, andThen, shift, andThen]
  exact turnOf_sre_of_get (inv_of_issue (inv_of_turnOf inv put_turn) (shift _)) (eng_shiftByte_xchgPut inv put _)

theorem exchange_of_more (reply : State → Byte) (more : s.sre.k.val < 4) :
    exchange reply s = .next (nextByte (afterByte (reply (xchgPut s)) s)) := by
  have index := k_shiftByte_xchgPut inv put (reply (xchgPut s))
  rw [exchange_of_put inv put, xchgGet_of_more (eng_shiftByte_xchgPut inv put _) rfl (by rwa [index]), index,
    takeReply_shiftByte_xchgPut inv put]
  rfl

theorem exchange_of_last (reply : State → Byte) (last : s.sre.k = 4) :
    exchange reply s = .next (endTransaction (afterByte (reply (xchgPut s)) s)) := by
  have index := k_shiftByte_xchgPut inv put (reply (xchgPut s))
  rw [exchange_of_put inv put, xchgGet_of_last (eng_shiftByte_xchgPut inv put _) rfl (index.trans last),
    takeReply_shiftByte_xchgPut inv put]

end

/-! ### The five exchanges -/

/-- `u` is `s` with `j` bytes of its transaction exchanged: the chip has received them, and each reply taken is what
`reply` gave when the chip had received the bytes before. -/
structure Exchanged (reply : Nat → State → Byte) (s : State) (j : Nat) (u : State) : Prop where
  rxu : u.rxu = s.rxu
  txu : u.txu = s.txu
  tx : u.sre.tx = s.sre.tx
  phase : u.sre.phase = s.sre.phase
  addr : u.sre.addr = s.sre.addr
  cs : u.sre.cs = s.sre.cs
  chip : u.chip = s.chip.received s.sre.tx j
  replies : ∀ i (hi : i < 5), i < j → ∃ v : State, v.chip = s.chip.received s.sre.tx i ∧ u.sre.rx[i] = reply i v

variable {reply : Nat → State → Byte} {j n : Nat}

theorem Exchanged.refl (reply : Nat → State → Byte) (s : State) : Exchanged reply s 0 s :=
  ⟨rfl, rfl, rfl, rfl, rfl, rfl, rfl, fun _ _ none => absurd none (Nat.not_lt_zero _)⟩

theorem Exchanged.moved_on (h : Exchanged reply s j u) : Exchanged reply s j (nextByte u) := { h with }

theorem Exchanged.byte_taken (h : Exchanged reply s j u) (inv : Inv u) (put : u.sre.eng = .put)
    (index : u.sre.k.val = j) : Exchanged reply s (j + 1) (afterByte (reply j (xchgPut u)) u) :=
  { h with
    chip := by simp [afterByte, Chip.received, h.chip, ← h.tx, ← index]
    replies := fun i hi before => by
      by_cases this_byte : i = j
      · subst this_byte
        exact ⟨xchgPut u, by rw [xchgPut_of_inv inv put, h.chip], by simp [afterByte, index]⟩
      · obtain ⟨v, chip, taken⟩ := h.replies i hi (by omega)
        refine ⟨v, chip, ?_⟩
        rw [← taken]
        exact Vector.getElem_set_ne u.sre.k.isLt hi (by omega) }

/-- The exchanges left, from byte `j` on, end the transaction with all five bytes exchanged. -/
theorem Exchanged.exists_exchanges (h : Exchanged reply s j u) (inv : Inv u) (put : u.sre.eng = .put)
    (index : u.sre.k.val = j) (left : j + n = 4) :
    ∃ w, exchanges reply j (n + 1) u = .next (endTransaction w) ∧ Exchanged reply s 5 w := by
  induction n generalizing u j with
  | zero =>
    obtain rfl : j = 4 := left
    have last := exchange_of_last inv put (reply 4) (Fin.ext index)
    exact ⟨_, by rw [exchanges, last]; rfl, h.byte_taken inv put index⟩
  | succ n ih =>
    have before_last : u.sre.k.val < 4 := by omega
    have more := exchange_of_more inv put (reply j) before_last
    have index' : (nextByte (afterByte (reply j (xchgPut u)) u)).sre.k.val = j + 1 := by
      rw [nextByte_k (s := afterByte _ u) before_last, ← index, afterByte]
    obtain ⟨w, run, all⟩ := ih (h.byte_taken inv put index).moved_on (inv_of_exchange inv more) rfl index' (by omega)
    exact ⟨w, by rw [exchanges, more, andThen, run], all⟩

/-- From its start a transaction runs to its end in five exchanges, and its datagram reaches the chip whole. -/
theorem exists_transaction {ph : SrePhase} {b : DatagramBytes} (reply : Nat → State → Byte)
    (inv : Inv (startTransaction ph b s)) : ∃ w, exchanges reply 0 5 (startTransaction ph b s) =
      .next (endTransaction w) ∧ Exchanged reply (startTransaction ph b s) 5 w :=
  (Exchanged.refl reply _).exists_exchanges inv rfl rfl rfl

end Sys2Proof.Machine
end

section
/-! PROOFS. Whole register operations (R196, R198, R200, R216): a write is one transaction, a read two. -/

namespace Sys2Proof.Machine

variable {s t : State}

theorem eng_of_mainReady (inv : Inv s) (main : MainReady s) : s.sre.eng = .idle :=
  inv.sre.callerWaiting_eq_false_iff.mp (Bool.or_eq_false_iff.mp main.1).2

theorem issue_regWrite (inv : Inv s) (main : MainReady s) (a : BitVec 8) (v : Word) :
    issue (.regWrite a v) s = .next
      (startTransaction .wr (writeDatagram (addrOperand a) v) (latchCaller (addrOperand a) (markStep .main s))) := by
  have idle : (markStep .main s).sre.eng = .idle := eng_of_mainReady (s := s) inv main
  rw [issue_of_free (i := .regWrite a v) main.1 main.2]
  exact exec_regWrite_of_idle idle a v

theorem issue_regRead (inv : Inv s) (main : MainReady s) (a : BitVec 8) : issue (.regRead a) s =
    .next (startTransaction .rd1 (readDatagram (addrOperand a)) (latchCaller (addrOperand a) (markStep .main s))) := by
  have idle : (markStep .main s).sre.eng = .idle := eng_of_mainReady (s := s) inv main
  rw [issue_of_free (i := .regRead a) main.1 main.2]
  exact exec_regRead_of_idle idle a

theorem issue_settleElapsed (settle : s.sre.eng = .settle) :
    issue .settleElapsed s = .next (startTransaction .rd2 (readDatagram s.sre.addr) s) := by
  rw [issue_of_serialEnv rfl, exec_settleElapsed_of_settle settle]

/-- A transaction that has run to its last byte has given its datagram to the chip, once `cs` falls. -/
theorem Exchanged.release_chip {reply : Nat → State → Byte} {ph : SrePhase} {b : DatagramBytes} {w : State}
    (h : Exchanged reply (startTransaction ph b s) 5 w) (released : s.sre.cs = false) :
    w.chip.release = s.chip.datagram b := by
  rw [h.chip, Chip.datagram_eq_received, startTransaction_of_released released]

/-- Settles O42: one transaction, of phase WR. -/
theorem regWriteRunsToItsEnd : Obligations.RegWriteRunsToItsEnd := by
  intro reply a v s inv main
  have released : s.sre.cs = false := (inv.sre.of_idle (eng_of_mainReady inv main)).1
  have start := issue_regWrite inv main a v
  obtain ⟨w, run, done⟩ := exists_transaction reply (inv_of_issue inv start)
  have chip : w.chip.release = s.chip.datagram _ := done.release_chip released
  refine ⟨endTransaction w, by rw [regWriteRun, start, andThen, run], ?_⟩
  rw [endTransaction_of_wr done.cs done.phase, chip]
  refine ⟨rfl, rfl, rfl, rfl, rfl, ?_, ?_, done.rxu, done.txu⟩
  · rw [Chip.datagram_write]
    rfl
  · rw [Chip.datagram_write]
    rfl

/-- Phase 1 of a read leaves the engine in SETTLE, the address latched and the register latched by the chip (R198). -/
theorem exists_phaseOne (reply : Nat → State → Byte) (a : BitVec 8) (inv : Inv s) (main : MainReady s) :
    ∃ t, andThen (issue (.regRead a) s) (exchanges reply 0 5) = .next t ∧ Inv t ∧ t.sre.eng = .settle ∧
      t.sre.addr = addrOperand a ∧ t.chip = s.chip.datagram (readDatagram (addrOperand a)) ∧ t.rxu = s.rxu ∧
      t.txu = s.txu := by
  have released : s.sre.cs = false := (inv.sre.of_idle (eng_of_mainReady inv main)).1
  have start := issue_regRead inv main a
  have started := inv_of_issue inv start
  obtain ⟨w, run, done⟩ := exists_transaction reply started
  have chip : w.chip.release = s.chip.datagram _ := done.release_chip released
  refine ⟨endTransaction w, by rw [start, andThen, run], inv_of_exchanges started run, ?_⟩
  rw [endTransaction_of_rd1 done.cs done.phase]
  exact ⟨rfl, done.addr, chip, done.rxu, done.txu⟩

/-- Phase 2 of a read returns bytes 1 to 4 of its replies `q`, each given when the chip had received the bytes of the
same datagram before it (R199, R200). -/
theorem exists_phaseTwo (reply : Nat → State → Byte) (inv : Inv s) (settle : s.sre.eng = .settle) :
    ∃ (t : State) (q : DatagramBytes), andThen (issue .settleElapsed s) (exchanges reply 0 5) = .next t ∧
      t.ret = some (.readValue (wordOfReply q)) ∧ t.sre.result = wordOfReply q ∧ t.sre.eng = .idle ∧
      t.sre.cs = false ∧ t.sre.callerWaiting = false ∧ t.rxu = s.rxu ∧ t.txu = s.txu ∧
      ∀ i (hi : i < 5), ∃ v : State, v.chip = s.chip.select.received (readDatagram s.sre.addr) i ∧
        q[i] = reply i v := by
  have released : s.sre.cs = false := (inv.sre.of_settle settle).1
  have start := issue_settleElapsed settle
  obtain ⟨w, run, done⟩ := exists_transaction reply (inv_of_issue inv start)
  refine ⟨endTransaction w, w.sre.rx, by rw [start, andThen, run], ?_⟩
  rw [endTransaction_of_rd2 done.cs done.phase]
  refine ⟨rfl, rfl, rfl, rfl, rfl, done.rxu, done.txu, fun i hi => ?_⟩
  simpa [startTransaction_of_released released] using done.replies i hi hi

/-- A read is the two phases, one after the other. -/
theorem regReadRun_of_phases {reply1 reply2 : Nat → State → Byte} {a : BitVec 8} {t : State}
    (one : andThen (issue (.regRead a) s) (exchanges reply1 0 5) = .next t) :
    regReadRun reply1 reply2 a s = andThen (issue .settleElapsed t) (exchanges reply2 0 5) := by
  obtain ⟨u, start, run⟩ := andThen_eq_next_iff.mp one
  rw [regReadRun, start, andThen, run, andThen]

/-- Settles O43: the replies of phase 2 are the bytes given, whatever state they are given in. -/
theorem regReadReturnsPhaseTwo : Obligations.RegReadReturnsPhaseTwo := by
  intro r q a s inv main
  obtain ⟨t, one, inv', settle, -, -, rxu, txu⟩ := exists_phaseOne (givenReplies r) a inv main
  obtain ⟨u, p, two, ret, result, eng, cs, caller, rxu', txu', replies⟩ :=
    exists_phaseTwo (givenReplies q) inv' settle
  obtain rfl : p = q := Vector.ext fun i hi => by
    obtain ⟨v, -, given⟩ := replies i hi
    simpa [givenReplies, Vector.getD, hi] using given
  exact ⟨u, (regReadRun_of_phases one).trans two, ret, result, eng, cs, caller, rxu'.trans rxu, txu'.trans txu⟩

/-- Settles O44: phase 1 latches the value written, and phase 2 shifts it out. -/
theorem writeThenReadReturnsTheValue : Obligations.WriteThenReadReturnsTheValue := by
  intro st1 st2 st3 a v s inv main
  obtain ⟨t, write, -, -, caller, -, -, regs, -, rxu, -⟩ := regWriteRunsToItsEnd (chipReplies st1) a v s inv main
  have inv_t : Inv t := by
    obtain ⟨_, start, run⟩ := andThen_eq_next_iff.mp write
    exact inv_of_exchanges (inv_of_issue inv start) run
  have main_t : MainReady t := ⟨by simp [holds, caller, inv_t.rxu.not_in_isr], by rw [rxu]; exact main.2⟩
  obtain ⟨u, one, inv_u, settle, addr, chip, -⟩ := exists_phaseOne (chipReplies st2) a inv_t main_t
  obtain ⟨w, q, two, ret, result, -, -, -, -, -, replies⟩ := exists_phaseTwo (chipReplies st3) inv_u settle
  have latched : u.chip.dataWord = v := by
    rw [chip, Chip.dataWord_datagram_read]
    simp [regs, addrOperand]
  have shifted_out : q = msbFirst st3 v := Vector.ext fun i hi => by
    obtain ⟨x, received, reply⟩ := replies i hi
    rw [reply, chipReplies, received, Chip.reply_received_select _ _ _ hi, latched]
  rw [shifted_out, wordOfReply_msbFirst] at ret result
  exact ⟨w, by rw [write, andThen, regReadRun_of_phases one, two], ret, result⟩

end Sys2Proof.Machine
end

section
/-! PROOFS. A requested interrupt stays requested (R29, R243): outside the ISR's turn nothing takes the link down or a
frame out of the receive stage. -/

namespace Sys2Proof.Machine

variable {s t : State}

@[simp] theorem rxPop_hwq (s : State) : (rxPop s).rxu.hwq = s.rxu.hwq := by
  rcases rxPop_cases s with ⟨h, -⟩ | ⟨h, -⟩ | ⟨h, -⟩ <;> simp [h]

/-- An arrival leaves the link flag alone and adds to the receive stage at most. -/
theorem irqRx_arrive (requested : irqRx s = true) (f : Frame) : irqRx (arrive f s) = true := by
  obtain ⟨e, -⟩ | ⟨e, up, -⟩ := arrive_cases f s <;> rw [e]
  · exact requested
  · simp [irqRx, up]

/-- Of the instructions RX_ISR alone takes a frame out of the receive stage. -/
theorem exec_irqRx {i : Instr} (run : exec i s = .next t) (other : i ≠ .rxIsr) (requested : irqRx s = true) :
    irqRx t = true := by
  cases exec_rxuCase run with
  | same eq => rwa [irqRx, eq]
  | linkInit lb instr down eq => simp [irqRx, down] at requested
  | receive n instr up eq => rwa [irqRx, eq]
  | isr instr eq => exact absurd instr other
  | arrival f eq => rw [irqRx, eq]; exact irqRx_arrive requested f

/-- Settles O28: the case analysis of a step; the micro-steps leave the link flag and the receive stage alone. -/
theorem interruptStaysRequested : Obligations.InterruptStaysRequested := by
  intro s t h requested not_isr not_reset
  obtain ⟨n, -, c⟩ := step_cases h
  cases c with
  | stay eq => rw [eq]; exact requested
  | pop ready busy eq => rw [eq, irqRx, rxPop_linkUp, rxPop_hwq]; exact requested
  | micro eq => rw [eq, irqRx, sreMicro_rxu]; exact requested
  | run i m turn ready free mark eq =>
    have other : i ≠ .rxIsr := fun instr => not_isr (by rw [turn, instr]; rfl)
    exact exec_irqRx (s := { s with inputs := n, mainStepped := m }) eq other requested
  | reset turn eq => exact absurd turn not_reset

end Sys2Proof.Machine
end

section
/-! PROOFS. The refusals (R97 to R99, R121, R202, R242): an instruction completes or is in a case of `RefusalCase`, and
a turn completes or is refused for the record offered at it. -/

namespace Sys2Proof.Machine

variable {s : State}

/-! ### The refusals of the instructions -/

theorem exec_linkInit_of_up (up : s.rxu.linkUp = true) (lb : Bool) : exec (.linkInit lb) s = .refused .linkReinit :=
  (linkRefusals s).1 up lb

theorem exec_send_of_down (down : s.rxu.linkUp = false) (f : Frame) :
    exec (.send f) s = .refused .linkNotInitialised :=
  ((linkRefusals s).2 down).2 f

theorem exec_send_of_long {f : Frame} (up : s.rxu.linkUp = true) (long : 8 < f.len.toNat) :
    exec (.send f) s = .refused .sendLength :=
  (operandRangeChecks s).1 f up long

theorem exec_txDone_of_absent {j : BitVec 8} (absent : s.cfg.nMailbox ≤ j.toNat) :
    exec (.txDone j) s = .refused .noSuchMailbox :=
  (operandRangeChecks s).2.1 j absent

theorem RefusalCase.exec_eq {i : Instr} {r : Refusal} (h : RefusalCase i s r) : exec i s = .refused r := by
  obtain ⟨rfl, up, lb, rfl⟩ | ⟨rfl, down, ⟨n, rfl⟩ | ⟨f, rfl⟩⟩ | ⟨rfl, up, f, rfl, long⟩ | ⟨rfl, j, rfl, absent⟩ |
    ⟨rfl, busy, ⟨a, v, rfl⟩ | ⟨a, rfl⟩ | ⟨a, v, rfl⟩ | ⟨a, rfl⟩⟩ := h
  · exact exec_linkInit_of_up up lb
  · exact exec_receive_of_down down n
  · exact exec_send_of_down down f
  · exact exec_send_of_long up long
  · exact exec_txDone_of_absent absent
  · exact exec_regWrite_of_busy busy a v
  · exact exec_regRead_of_busy busy a
  · exact exec_dgramWrite_of_busy busy a v
  · exact exec_dgramRead_of_busy busy a

/-! ### The instructions that complete -/

theorem exists_exec_send_next {f : Frame} (up : s.rxu.linkUp = true) (short : f.len.toNat ≤ 8) :
    ∃ t, exec (.send f) s = .next t := by
  cases choice : freeMailbox s with
  | none => exact ⟨_, exec_send_of_none up short choice⟩
  | some i => exact ⟨_, exec_send_of_some up short choice⟩

theorem exists_exec_rxIsr_next (s : State) : ∃ t, exec .rxIsr s = .next t := by
  rw [exec, execRxIsr]
  split <;> exact ⟨_, rfl⟩

/-- A mailbox that the list does not hold reads as a free one (log entry 19). -/
theorem exists_exec_txDone_next_of_lt {j : BitVec 8} (present : j.toNat < s.cfg.nMailbox) :
    ∃ t, exec (.txDone j) s = .next t := by
  rcases Nat.lt_or_ge j.toNat s.txu.mailboxes.length with hj | beyond
  · exact exists_exec_txDone_next present hj
  · exact ⟨s, by simp [exec, execTxDone, present, beyond]⟩

theorem exists_exec_spiShift_next (q : Byte) (s : State) : ∃ t, exec (.spiShift q) s = .next t := by
  cases enabled : shiftEnabled s with
  | true => exact ⟨_, exec_spiShift_of_enabled enabled q⟩
  | false => exact ⟨_, exec_spiShift_of_not_enabled enabled q⟩

theorem exists_exec_settleElapsed_next (s : State) : ∃ t, exec .settleElapsed s = .next t := by
  by_cases settle : s.sre.eng = .settle
  · exact ⟨_, exec_settleElapsed_of_settle settle⟩
  · exact ⟨_, (settleElapsedCompletes s).2.1 settle⟩

/-- An instruction completes, or one of its own checks fails. -/
theorem exec_next_or_refusalCase (i : Instr) (s : State) :
    (∃ t, exec i s = .next t) ∨ ∃ r, RefusalCase i s r := by
  cases i with
  | linkInit lb =>
    cases link : s.rxu.linkUp with
    | true => exact .inr ⟨.linkReinit, by simp [RefusalCase, link]⟩
    | false => exact .inl ⟨_, exec_linkInit_of_down link lb⟩
  | receive n =>
    cases link : s.rxu.linkUp with
    | true => exact .inl ⟨_, exec_receive_of_up link n⟩
    | false => exact .inr ⟨.linkNotInitialised, by simp [RefusalCase, link]⟩
  | send f =>
    cases link : s.rxu.linkUp with
    | true =>
      rcases Nat.lt_or_ge 8 f.len.toNat with long | short
      · exact .inr ⟨.sendLength, by simp [RefusalCase, link, long]⟩
      · exact .inl (exists_exec_send_next link short)
    | false => exact .inr ⟨.linkNotInitialised, by simp [RefusalCase, link]⟩
  | regWrite a v =>
    exact (em (s.sre.eng = .idle)).imp (fun idle => ⟨_, exec_regWrite_of_idle idle a v⟩)
      fun busy => ⟨.serialBusy, by simp [RefusalCase, busy]⟩
  | regRead a =>
    exact (em (s.sre.eng = .idle)).imp (fun idle => ⟨_, exec_regRead_of_idle idle a⟩)
      fun busy => ⟨.serialBusy, by simp [RefusalCase, busy]⟩
  | rxIsr => exact .inl (exists_exec_rxIsr_next s)
  | frameArrival f => exact .inl ⟨_, exec_frameArrival f s⟩
  | txDone j =>
    rcases Nat.lt_or_ge j.toNat s.cfg.nMailbox with present | absent
    · exact .inl (exists_exec_txDone_next_of_lt present)
    · exact .inr ⟨.noSuchMailbox, by simp [RefusalCase, absent]⟩
  | spiShift q => exact .inl (exists_exec_spiShift_next q s)
  | settleElapsed => exact .inl (exists_exec_settleElapsed_next s)
  | dgramWrite a v =>
    exact (em (s.sre.eng = .idle)).imp (fun idle => ⟨_, exec_dgramWrite_of_idle idle a v⟩)
      fun busy => ⟨.serialBusy, by simp [RefusalCase, busy]⟩
  | dgramRead a =>
    exact (em (s.sre.eng = .idle)).imp (fun idle => ⟨_, exec_dgramRead_of_idle idle a⟩)
      fun busy => ⟨.serialBusy, by simp [RefusalCase, busy]⟩

/-- Settles O57: each case of `RefusalCase` is refused under its name, and outside them the instruction completes. -/
theorem refusedOnlyInTheListedCases : Obligations.RefusedOnlyInTheListedCases := by
  refine fun i s r => ⟨fun refused => ?_, RefusalCase.exec_eq⟩
  obtain ⟨t, next⟩ | ⟨q, h⟩ := exec_next_or_refusalCase i s
  · simp [next] at refused
  · obtain rfl : q = r := by simpa [h.exec_eq] using refused
    exact h

/-! ### The refusals of a turn -/

theorem decode_error {o : Raw} {e : Reject} (h : decode o = .error e) : e = .reservedEncoding := by
  cases o with
  | opr o => exact decode_opr_error h
  | dgram g =>
    simp only [decode, decodeDatagram] at h
    split at h
    · cases h
    · split at h <;> cases h
      rfl

/-- Why the record `o`, offered by agent `a`, is refused (R97, R98, R242). -/
def OfferRefused (a : Agent) (o : Raw) (s : State) (r : Refusal) : Prop :=
  (r = .reservedEncoding ∧ decode o = .error .reservedEncoding) ∨
    ∃ i, decode o = .ok i ∧ ((r = .wrongIssuer ∧ i.issuer ≠ a) ∨ (i.issuer = a ∧ RefusalCase i s r))

theorem offer_next_or_refused (a : Agent) (o : Raw) (s : State) :
    (∃ t, offer a o s = .next t) ∨ ∃ r, offer a o s = .refused r ∧ OfferRefused a o s r := by
  cases decoded : decode o with
  | error e =>
    obtain rfl := decode_error decoded
    exact .inr ⟨.reservedEncoding, by rw [offer, decoded]; rfl, .inl ⟨rfl, decoded⟩⟩
  | ok i =>
    by_cases issuer : i.issuer = a
    · rw [offer_of_decode decoded issuer]
      exact (exec_next_or_refusalCase i s).imp_right fun ⟨r, h⟩ =>
        ⟨r, h.exec_eq, .inr ⟨i, decoded, .inr ⟨issuer, h⟩⟩⟩
    · exact .inr ⟨.wrongIssuer, by simp [offer, decoded, issuer], .inr ⟨i, decoded, .inl ⟨rfl, issuer⟩⟩⟩

theorem exists_spontaneous_next (a : Agent) (s : State) : ∃ t, spontaneous a s = .next t := by
  cases a with
  | isr => exact exists_exec_rxIsr_next s
  | main | bus | serialEnv | sre | chip => exact ⟨s, rfl⟩

/-- MAIN blocked offers a register operation to a busy engine (R202, log entry 7): the record is in that case. -/
theorem offerRefused_of_offersWhileBusy {a : Agent} (offers : offersWhileBusy a s = true) :
    ∃ o os, s.inputs.pending a = o :: os ∧ OfferRefused a o s .serialBusy := by
  cases a with
  | main =>
    simp only [offersWhileBusy, Bool.and_eq_true, bne_iff_ne, Option.any_eq_true] at offers
    obtain ⟨⟨-, busy⟩, o, first, offersOp⟩ := offers
    obtain ⟨os, next⟩ := List.head?_eq_some_iff.mp first
    refine ⟨o, os, next, .inr ?_⟩
    unfold offersRegisterOp at offersOp
    split at offersOp
    · rename_i i decoded
      obtain ⟨b, v, rfl⟩ | ⟨b, rfl⟩ := (isRegisterOp_iff i).mp offersOp
      · exact ⟨_, decoded, .inr ⟨rfl, by simp [RefusalCase, busy]⟩⟩
      · exact ⟨_, decoded, .inr ⟨rfl, by simp [RefusalCase, busy]⟩⟩
    · cases offersOp
  | isr | bus | serialEnv | sre | chip => cases offers

/-- A hold, a micro-step and a turn with nothing to offer complete; else the first record of the list decides. -/
theorem agentTurn_next_or_refused (a : Agent) (s : State) :
    (∃ t, agentTurn a s = .next t) ∨
      ∃ r o os, agentTurn a s = .refused r ∧ s.inputs.pending a = o :: os ∧ OfferRefused a o s r := by
  cases held : holds a s with
  | true =>
    cases offers : offersWhileBusy a s with
    | true =>
      obtain ⟨o, os, next, why⟩ := offerRefused_of_offersWhileBusy offers
      exact .inr ⟨_, o, os, agentTurn_of_offersWhileBusy held offers, next, why⟩
    | false => exact .inl ⟨s, agentTurn_of_held held offers⟩
  | false =>
    cases inside : inMicroSteps a s with
    | true => exact .inl ⟨_, agentTurn_of_inMicroSteps held inside⟩
    | false =>
      cases next : s.inputs.pending a with
      | nil =>
        obtain ⟨t, taken⟩ := exists_spontaneous_next a s
        exact .inl ⟨t, by simp [agentTurn, held, inside, next, taken]⟩
      | cons o os =>
        rw [agentTurn_of_free held inside next]
        exact (offer_next_or_refused a o (markStep a (setPending a os s))).imp_right
          fun ⟨r, refused, why⟩ => ⟨r, o, os, refused, rfl, why⟩

/-- Settles O58: without a turn and at a node reset the step completes, and an agent's turn is
`agentTurn_next_or_refused`. -/
theorem stepAnswersNextOrAListedRefusal : Obligations.StepAnswersNextOrAListedRefusal := by
  intro s
  cases turns : s.inputs.turns with
  | nil => exact .inl ⟨_, step_of_no_turn turns⟩
  | cons u ts =>
    cases u with
    | nodeReset => exact .inl ⟨_, step_of_turn turns⟩
    | agent a =>
      rw [step_of_turn turns, takeTurn]
      exact (agentTurn_next_or_refused a (setTurns ts s)).imp_right fun ⟨r, o, os, refused, next, why⟩ =>
        ⟨r, a, ts, o, os, refused, rfl, (pending_setTurns ts).symm.trans next, why⟩

end Sys2Proof.Machine
end

section
/-! PROOFS. Reset and node reset (R45, R270, R271): what the state after reset is, and that a node reset gives it from
any state. -/

namespace Sys2Proof.Machine

theorem busy_of_mem_reset_mailboxes {p : Params} {m : Mailbox} (hm : m ∈ (Txu.reset p).mailboxes) : m.busy = false := by
  rw [List.eq_of_mem_replicate hm]

/-- Settles O14: each element is read off the reset state; of the mailboxes every one is the free one. -/
theorem resetLeavesSpecValues : Obligations.ResetLeavesSpecValues := fun _ =>
  ⟨rfl, rfl, rfl, rfl, rfl, fun _ => busy_of_mem_reset_mailboxes, rfl, rfl, rfl, rfl, rfl, rfl, rfl, rfl, rfl, rfl, rfl⟩

/-- Settles O50: `Inv.reset`, which asks for the legal parameters and nothing else. -/
theorem resetHasInv : Obligations.ResetHasInv := fun _ => Inv.reset

theorem step_of_nodeReset {s : State} {ts : List Turn} (turn : s.inputs.turns = .nodeReset :: ts) :
    step s = .next (nodeReset (setTurns ts s)) :=
  step_of_turn turn

theorem Chip.csEdge_to_released (cs : Bool) (c : Chip) : c.csEdge cs false = if cs then c.release else c := by
  cases cs <;> rfl

/-- Settles O15: the next state is `nodeReset`'s, and the chip sees `cs` fall if it was asserted. -/
theorem nodeResetFromAnyState : Obligations.NodeResetFromAnyState := fun s _ turn =>
  ⟨_, step_of_nodeReset turn, rfl, rfl, rfl, rfl, Chip.csEdge_to_released s.sre.cs s.chip, rfl, rfl⟩

end Sys2Proof.Machine
end

section
/-! PROOFS. MAIN is the first agent to step after reset (R270, log entry 26): until then no other agent's step changes
more than the inputs, and only MAIN's turn and a node reset move the mark. -/

namespace Sys2Proof.Machine

variable {s t : State}

/-! ### Before MAIN's first step -/

/-- No event is enabled: nothing is requested, busy, in transfer or settling, and a frame that arrives is lost. -/
theorem exec_before_main {i : Instr} (run : exec i s = .next t) (inv : Inv s) (unstarted : s.mainStepped = false)
    (not_main : i.issuer ≠ .main) (not_sre : i.issuer ≠ .sre) : t = s := by
  obtain ⟨down, idle, -⟩ := inv.not_started unstarted
  cases i with
  | linkInit _ | receive _ | send _ | regWrite _ _ | regRead _ => exact absurd rfl not_main
  | dgramWrite _ _ | dgramRead _ => exact absurd rfl not_sre
  | rxIsr =>
    obtain ⟨-, same⟩ | ⟨enabled, -⟩ := execRxIsr_next run
    · exact same
    · simp [rxIsrEnabled, irqRx, down] at enabled
  | frameArrival f => rw [execFrameArrival_next run, arrive_of_down down]
  | txDone j =>
    obtain ⟨-, same | ⟨m, hm, busy, -⟩⟩ := execTxDone_next run
    · exact same
    · simp [inv.mainStepped_of_busy (List.mem_of_getElem? hm) busy] at unstarted
  | spiShift r =>
    obtain ⟨-, same⟩ | ⟨enabled, -⟩ := execSpiShift_next run
    · exact same
    · simp [inv.sre.eng_of_shiftEnabled enabled] at idle
  | settleElapsed =>
    obtain ⟨-, same⟩ | ⟨settle, -⟩ := execSettleElapsed_next run
    · exact same
    · simp [settle] at idle

theorem beforeRun_of_ne_main {a : Agent} (other : a ≠ .main) (n : Inputs) (s : State) :
    beforeRun a n s = { s with inputs := n } :=
  markStep_of_ne_main other { s with inputs := n }

theorem step_before_main (run : step s = .next t) (inv : Inv s) (unstarted : s.mainStepped = false)
    (not_main : s.inputs.turns.head? ≠ some (.agent .main)) (not_reset : s.inputs.turns.head? ≠ some .nodeReset) :
    ∃ n : Inputs, t = { s with inputs := n } := by
  obtain ⟨down, idle, -⟩ := inv.not_started unstarted
  obtain ⟨n, -, c⟩ := step_cases run
  refine ⟨n, ?_⟩
  cases c with
  | stay eq => exact eq
  | pop _ busy _ => simp [inv.rxu.down_idle down] at busy
  | micro eq => rw [eq, sreMicro_of_idle (s := { s with inputs := n }) idle]
  | run i m turn ready _ mark eq =>
    subst mark
    have issuer_not_main : i.issuer ≠ .main := fun issuer => not_main (by rw [turn, issuer])
    have issuer_not_sre : i.issuer ≠ .sre := fun issuer => by simp [issuer, holds, unstarted] at ready
    rw [← beforeRun_of_ne_main issuer_not_main]
    exact exec_before_main eq (inv.beforeRun i.issuer n) (by simp [beforeRun, unstarted, issuer_not_main])
      issuer_not_main issuer_not_sre
  | reset turn _ => exact absurd turn not_reset

/-! ### The mark of MAIN's first step -/

@[simp] theorem produce_mainStepped (s : State) : (produce s).mainStepped = s.mainStepped := by rw [produce_eq]

@[simp] theorem transmitted_mainStepped (f : Frame) (s : State) : (transmitted f s).mainStepped = s.mainStepped := by
  obtain ⟨e, -⟩ | ⟨e, -⟩ := transmitted_cases f s <;> simp [e]

/-- No meaning moves the mark: the turn does. -/
theorem exec_mainStepped {i : Instr} (run : exec i s = .next t) : t.mainStepped = s.mainStepped := by
  cases i with
  | linkInit lb => obtain ⟨-, rfl⟩ := execLinkInit_next run; rfl
  | receive n => obtain ⟨-, rfl⟩ := execReceive_next run; rfl
  | send f => obtain ⟨-, -, ⟨-, rfl⟩ | ⟨j, -, rfl⟩⟩ := execSend_next run <;> rfl
  | regWrite a v => obtain ⟨-, rfl⟩ := execRegWrite_next run; rfl
  | regRead a => obtain ⟨-, rfl⟩ := execRegRead_next run; rfl
  | rxIsr => obtain ⟨-, rfl⟩ | ⟨-, rfl⟩ := execRxIsr_next run <;> simp
  | frameArrival f => obtain rfl := execFrameArrival_next run; simp
  | txDone j => obtain ⟨-, rfl | ⟨m, -, -, rfl⟩⟩ := execTxDone_next run <;> simp
  | spiShift r => obtain ⟨-, rfl⟩ | ⟨-, rfl⟩ := execSpiShift_next run <;> rfl
  | settleElapsed => obtain ⟨-, rfl⟩ | ⟨-, rfl⟩ := execSettleElapsed_next run <;> rfl
  | dgramWrite a v => obtain ⟨-, rfl⟩ := execDgramWrite_next run; rfl
  | dgramRead a => obtain ⟨-, rfl⟩ := execDgramRead_next run; rfl

/-- MAIN's turn may set the mark, a node reset clears it, and every other step leaves it. -/
theorem step_mainStepped_cases (run : step s = .next t) :
    t.mainStepped = s.mainStepped ∨
    (t.mainStepped = true ∧ s.inputs.turns.head? = some (.agent .main)) ∨
    (t.mainStepped = false ∧ s.inputs.turns.head? = some .nodeReset) := by
  obtain ⟨n, -, c⟩ := step_cases run
  cases c with
  | stay eq => exact .inl (by rw [eq])
  | pop _ _ eq => exact .inl (by rw [eq, rxPop_mainStepped])
  | micro eq => exact .inl (by rw [eq, sreMicro_mainStepped])
  | run i m turn _ _ mark eq =>
    subst mark
    rw [exec_mainStepped eq]
    by_cases main : i.issuer = .main
    · exact .inr (.inl ⟨by simp [main], by rw [turn, main]⟩)
    · exact .inl (by simp [main])
  | reset turn eq => exact .inr (.inr ⟨by rw [eq, nodeReset_mainStepped], turn⟩)

/-- Settles O60: the SRE holds until MAIN has stepped, the other agents have nothing enabled, and the mark moves by
`step_mainStepped_cases`. -/
theorem firstAgentToStepIsMain : Obligations.FirstAgentToStepIsMain := by
  refine ⟨fun _ => rfl, fun s ts turn => ⟨_, step_of_nodeReset turn, rfl⟩, fun s ts unstarted turn => ?_,
    fun s t a ts inv unstarted turn other run => ?_, fun s t run before after => ?_, fun s t run before after => ?_⟩
  · have held : holds .sre (setTurns ts s) = true := by simp [holds, unstarted]
    rw [step_of_turn turn, takeTurn, agentTurn_of_held held rfl]
  · exact step_before_main run inv unstarted (by simp [turn, other]) (by simp [turn])
  · obtain kept | ⟨-, main⟩ | ⟨cleared, -⟩ := step_mainStepped_cases run
    · simp [kept, before] at after
    · exact main
    · simp [cleared] at after
  · obtain kept | ⟨set, -⟩ | ⟨-, reset⟩ := step_mainStepped_cases run
    · simp [kept, before] at after
    · simp [set] at after
    · exact reset

end Sys2Proof.Machine
end

section
/-! PROOFS. The settling delay of a read (R199, R206, R275): SETTLE_ELAPSED alone ends it, and starts phase 2. -/

namespace Sys2Proof.Machine

variable {s t : State}

/-- In SETTLE the engine is not IDLE and shifts nothing, so SETTLE_ELAPSED is the only instruction that reaches it. -/
theorem exec_sre_of_settle {i : Instr} (run : exec i s = .next t) (inv : SreInv s.sre) (settle : s.sre.eng = .settle) :
    t.sre = s.sre ∨
    (i = .settleElapsed ∧ t.sre = (startTransaction .rd2 (readDatagram s.sre.addr) s).sre) := by
  cases exec_sreCase run with
  | same eq => exact .inl eq
  | regWrite _ _ _ idle _ | regRead _ _ idle _ | lone _ _ idle _ => simp [settle] at idle
  | shift _ _ enabled _ => simp [inv.eng_of_shiftEnabled enabled] at settle
  | settleElapsed instr _ eq => exact .inr ⟨instr, eq⟩

/-- Settles O54: the drain, the SRE's turn and every instruction but SETTLE_ELAPSED leave the engine as it is. -/
theorem phaseTwoOnlyAfterSettling : Obligations.PhaseTwoOnlyAfterSettling := by
  intro s t inv settle run not_reset
  have stays (same : t.sre = s.sre) : t.sre.eng = .settle ∧ t.sre.callerWaiting = true := by
    obtain ⟨-, -, -, caller, -⟩ := inv.sre.of_settle settle
    exact same ▸ ⟨settle, caller⟩
  obtain ⟨n, -, c⟩ := step_cases run
  cases c with
  | stay eq => exact .inl (stays (by rw [eq]))
  | pop _ _ eq => exact .inl (stays (by rw [eq, rxPop_sre]))
  | micro eq => exact .inl (stays (by rw [eq, sreMicro_of_settle (s := { s with inputs := n }) settle]))
  | run i m turn _ _ _ eq =>
    obtain same | ⟨instr, started⟩ :=
      exec_sre_of_settle (s := { s with inputs := n, mainStepped := m }) eq inv.sre settle
    · exact .inl (stays same)
    · exact .inr ⟨by rw [turn, instr]; rfl, by simp [started]⟩
  | reset turn _ => exact absurd turn not_reset

end Sys2Proof.Machine
end

section
/-! PROOFS. Frames taken by the interrupt as they arrive, and then received (R73, R283; 95_test_vectors.md S1). -/

namespace Sys2Proof.Machine

variable {s t : State}

/-! ### Arrivals, each taken by the interrupt -/

/-- The link is up with every arrival so far taken, the ISR takes interrupts by itself, and MAIN can issue RECEIVE. -/
structure Listening (s : State) : Prop where
  inv : Inv s
  main : MainReady s
  up : s.rxu.linkUp = true
  stage : s.rxu.hwq = []
  none_offered : s.inputs.isr = []

theorem issue_frameArrival (f : Frame) (s : State) : issue (.frameArrival f) s = .next (arrive f s) :=
  (frameArrivalCompletes f s).1

section
variable (h : Listening s) (f : Frame)
include h

/-- There is room in an empty receive stage, which can hold a frame at least. -/
theorem Listening.arrive_hwq : (arrive f s).rxu.hwq = [f] := by
  have depth : 1 ≤ s.cfg.hwRxDepth := h.inv.legal.2.2
  have room : s.rxu.hwq.length ≠ s.cfg.hwRxDepth := by
    rw [h.stage, List.length_nil]
    omega
  rw [arrive_of_room h.up room, h.stage, List.nil_append]

theorem Listening.arriveIsr_eq : arriveIsr f s = .next (produce (arrive f s)) := by
  have requested : irqRx (arrive f s) = true :=
    irqRx_of_staged ((arrive_linkUp f s).trans h.up) (h.arrive_hwq f)
  rw [arriveIsr, issue_frameArrival, andThen,
    turnOf_isr_of_requested requested (h.inv.arrive f).rxu.not_in_isr (by rw [arrive_inputs, h.none_offered])]

theorem Listening.produce_arrive : Listening (produce (arrive f s)) where
  inv := (h.inv.arrive f).produce
  main := by
    have outside := (h.inv.arrive f).produce.rxu.not_in_isr
    obtain ⟨ready, free⟩ := h.main
    have caller : s.sre.callerWaiting = false := (Bool.or_eq_false_iff.mp ready).2
    exact ⟨by simp [holds, outside, caller], by simp [free]⟩
  up := by simp [h.up]
  stage := produce_hwq (h.arrive_hwq f)
  none_offered := by simp [h.none_offered]

theorem Listening.ringFrames_produce_arrive (room : (ringFrames s).length < s.cfg.ringN - 1) :
    ringFrames (produce (arrive f s)) = ringFrames s ++ [f] := by
  have unmoved : ringFrames (arrive f s) = ringFrames s := ringFrames_congr (by simp) (by simp) (by simp) (by simp)
  rw [ringFrames_produce (h.inv.arrive f) (h.arrive_hwq f), unmoved, arrive_cfg, List.take_of_length_le]
  rw [List.length_append, List.length_singleton]
  omega

end

/-- Frames that fit in the ring stand in it behind the ones it held, in the order they arrived. -/
theorem Listening.exists_arriveIsrAll {fs : List Frame} (h : Listening s)
    (room : (ringFrames s).length + fs.length ≤ s.cfg.ringN - 1) :
    ∃ t, arriveIsrAll fs s = .next t ∧ Listening t ∧ ringFrames t = ringFrames s ++ fs := by
  induction fs generalizing s with
  | nil => exact ⟨s, rfl, h, (List.append_nil _).symm⟩
  | cons f fs ih =>
    rw [List.length_cons] at room
    have first := h.ringFrames_produce_arrive f (by omega)
    obtain ⟨t, run, listening, ring⟩ := ih (h.produce_arrive f) (by simp [first, -length_ringFrames]; omega)
    exact ⟨t, by rw [arriveIsrAll, h.arriveIsr_eq, andThen, run], listening, by simp [ring, first]⟩

/-! ### RECEIVE -/

theorem inv_of_drainTurns {k : Nat} (inv : Inv s) (run : drainTurns k s = .next t) : Inv t := by
  induction k generalizing s with
  | zero => cases run; exact inv
  | succ k ih =>
    unfold drainTurns at run
    split at run
    · obtain ⟨u, first, rest⟩ := andThen_eq_next_iff.mp run
      exact ih (inv_of_turnOf inv first) rest
    · cases run; exact inv

theorem inv_of_receiveRun {n : BitVec 16} (inv : Inv s) (run : receiveRun n s = .next t) : Inv t := by
  obtain ⟨u, start, drain⟩ := andThen_eq_next_iff.mp run
  exact inv_of_drainTurns (inv_of_issue inv start) drain

theorem ringEmpty_of_ringFrames_eq_nil (inv : Inv s) (ring : ringFrames s = []) : ringEmpty s = true := by
  obtain ⟨-, -, -, empty_iff, -⟩ := indicesAndOccupancyInRange s inv
  rw [empty_iff, ← length_ringFrames, ring, List.length_nil]

/-- A RECEIVE of at least as many frames as the ring holds returns them all and leaves it empty. -/
theorem exists_receiveRun_all {n : BitVec 16} (inv : Inv s) (main : MainReady s) (up : s.rxu.linkUp = true)
    (enough : (ringFrames s).length ≤ n.toNat) :
    ∃ t, receiveRun n s = .next t ∧ t.ret = some (.received (ringFrames s).length (ringFrames s)) ∧
      ringEmpty t = true := by
  obtain ⟨t, run, ret, rest, -⟩ := receiveReturnsOldestFrames n s inv main up
  rw [← length_ringFrames, Nat.min_eq_right enough, List.take_of_length_le enough] at ret
  rw [List.drop_of_length_le enough] at rest
  exact ⟨t, run, ret, ringEmpty_of_ringFrames_eq_nil (inv_of_receiveRun inv run) rest⟩

/-- Settles O25: the frames fill the empty ring in the order they arrive, and RECEIVE returns all it holds. -/
theorem fifoDelivery : Obligations.FifoDelivery := by
  intro fs n s inv main up stage empty none_offered fit enough
  have nothing : ringFrames s = [] := ringFrames_eq_nil (beq_iff_eq.mp empty)
  obtain ⟨u, arrivals, listening, ring⟩ :=
    (Listening.mk inv main up stage none_offered).exists_arriveIsrAll (fs := fs) (by simpa [nothing] using fit)
  rw [nothing, List.nil_append] at ring
  obtain ⟨t, receive, ret, left_empty⟩ :=
    exists_receiveRun_all (n := n) listening.inv listening.main listening.up (by rwa [ring])
  exact ⟨t, by rw [arrivals, andThen, receive], by rw [ret, ring], left_empty⟩

end Sys2Proof.Machine
end

section
/-! PROOFS. A run that has ended (D32): no micro-step is left for the block to take by itself. -/

namespace Sys2Proof.Machine

variable {s : State}

theorem runEnded_iff :
    runEnded s = true ↔ s.inputs.main = [] ∧ s.sre.callerWaiting = false ∧ s.rxu.rxBusy = false ∧
      s.sre.eng = .idle ∧ irqRx s = false := by
  simp [runEnded, and_assoc]

/-- Settles O55: with no drain and the engine IDLE, a step without a turn has no micro-step to take (O13). -/
theorem endedRunStays : Obligations.EndedRunStays := by
  intro s _ ended no_turn
  obtain ⟨-, -, no_drain, idle, -⟩ := runEnded_iff.mp ended
  obtain ⟨-, -, -, stays⟩ := unscheduledStep s no_turn
  exact stays no_drain (.inl idle)

end Sys2Proof.Machine
end
